-- ==== Sys2Proof/Word.lean ====
section
/-! DEFINITION. The machine word, the byte of the binary format, and the one reserved address. -/

namespace Sys2Proof

/-- One word: a register's contents, a memory word, an address, an opcode word, an operand word
(00_scope.md R8 `WORD`, `ADDR`; R10). -/
abbrev Word := BitVec 16

/-- One byte of the binary program format (46_codec.md R182). Memory itself holds words, never bytes
(20_memory.md R57). -/
abbrev Byte := BitVec 8

/-- The halt sentinel: the reserved address 0xFFFF and the word 0xFFFF (00_scope.md R8, R13;
20_memory.md R54). -/
def haltWord : Word := 0xFFFF

end Sys2Proof
end

