-- ==== Sys2Proof/Syntax.lean ====
section
/-! DEFINITION. The syntax of the instruction set: register ids, operand kinds, the closed enum of the 32
opcodes, and the instruction itself (30_encoding.md R70 to R73). -/

namespace Sys2Proof

/-- A register id, 0 to 15 (10_state.md R20). -/
abbrev RegId := Fin 16

/-- Program counter, id 10 (10_state.md R21, R24). -/
abbrev RegId.pc : RegId := 10
/-- Stack pointer, id 11 (10_state.md R21, R25). -/
abbrev RegId.sp : RegId := 11
/-- Accumulator, id 12 (10_state.md R21, R26). -/
abbrev RegId.ac : RegId := 12
/-- Extra/remainder register, id 13 (10_state.md R21, R27). -/
abbrev RegId.ex : RegId := 13
/-- Branch indicator, id 14 (10_state.md R21, R28). -/
abbrev RegId.bi : RegId := 14
/-- Last-executed-instruction address, id 15 (10_state.md R21, R29). -/
abbrev RegId.lc : RegId := 15

/-- What an instruction uses an operand word as (30_encoding.md R72). -/
inductive OperandKind where
  /-- A register id. -/
  | register
  /-- A value or an address. -/
  | immediate
  deriving DecidableEq, Repr

/-- The closed enum of opcodes, in the order of the Instruction Table (30_encoding.md R73, R75). -/
inductive Opcode where
  | nop | cop | cpl | str | ldr
  | add | sub | twc | inc | dec | mul | div | dvc
  | xor | and | orr | not | shr | shl
  | psh | pop | ret | cal | cmp | cle | cln | gto | gte | gtn
  | sth | ldh | vga
  deriving DecidableEq, Repr

/-- One instruction: an opcode with its operand words as they stand in memory. A register operand is kept as
the whole operand word, because a word above 15 is legal in the encoding and faults only when the instruction is
executed (30_encoding.md R72, R77, R81; 46_codec.md R187). -/
inductive Instr where
  /-- R120 -/
  | nop
  /-- R121 -/
  | cop (dst src : Word)
  /-- R122 -/
  | cpl (dst imm : Word)
  /-- R123 -/
  | str (addrReg valReg : Word)
  /-- R124 -/
  | ldr (dst addrReg : Word)
  /-- R130 -/
  | add (src : Word)
  /-- R131 -/
  | sub (src : Word)
  /-- R132 -/
  | twc (reg : Word)
  /-- R133 -/
  | inc (reg : Word)
  /-- R134 -/
  | dec (reg : Word)
  /-- R135 -/
  | mul (src : Word)
  /-- R136 -/
  | div (src : Word)
  /-- R137 -/
  | dvc (src : Word)
  /-- R140 -/
  | xor (src : Word)
  /-- R141 -/
  | and (src : Word)
  /-- R142 -/
  | orr (src : Word)
  /-- R143 -/
  | not (reg : Word)
  /-- R144 -/
  | shr (reg amountReg : Word)
  /-- R145 -/
  | shl (reg amountReg : Word)
  /-- R152 -/
  | psh (valReg : Word)
  /-- R153 -/
  | pop (dst : Word)
  /-- R154 -/
  | ret
  /-- R155 -/
  | cal (addr : Word)
  /-- R156 -/
  | cmp (r1 r2 : Word)
  /-- R157 -/
  | cle (addr : Word)
  /-- R158 -/
  | cln (addr : Word)
  /-- R159 -/
  | gto (reg : Word)
  /-- R160 -/
  | gte (reg : Word)
  /-- R161 -/
  | gtn (reg : Word)
  /-- R170 -/
  | sth (addrReg valReg : Word)
  /-- R171 -/
  | ldh (dst addrReg : Word)
  /-- R172 -/
  | vga
  deriving DecidableEq, Repr

end Sys2Proof
end

