-- ==== Sys2Proof/Config.lean ====
section
/-! DEFINITION. The implementation parameters of 00_scope.md R8 as one record, and the constants without a body
that stand for the parameters the spec leaves OPEN. The record is held, unchanged, in every State, so that a
statement about every state is a statement about every setting of the parameters (assumption 3). -/

namespace Sys2Proof

/-- `DVC_REM_SIGN`, the sign rule of the `dvc` remainder (42_arithmetic.md R137; decision D11). -/
inductive RemSign where
  /-- The remainder is the non-negative `|c| mod |s|`. -/
  | magnitude
  /-- The remainder takes the dividend's sign. -/
  | dividend
  deriving DecidableEq, Repr

/-- `OPCODE_MAP`: the opcode number of each of the 32 opcodes, in table order (30_encoding.md R73, R76;
decision D3). -/
abbrev OpcodeMap := Vector Word 32

/-- The parameters of 00_scope.md R8. The word width, the address width, the register count and ids and the halt
sentinel are fixed by the types; `heapOffset` is state. -/
structure Config where
  /-- `MEM_DEFAULT`: what a never-written word reads as (20_memory.md R51). -/
  memDefault : Word
  /-- `REG_RESET`: the value of the registers the loader does not set (10_state.md R37). -/
  regReset : Word
  /-- `STACK_MIN`: start of the stack region, and the size of the text region (20_memory.md R53). -/
  stackMin : Word
  /-- `STACK_MAX`: last address of the stack region (20_memory.md R53). -/
  stackMax : Word
  /-- `PROGRAM_OFFSET`: program base address (20_memory.md R53). -/
  programOffset : Word
  /-- `BI_TRUE`, one marker of `bi` (10_state.md R28). -/
  biTrue : Word
  /-- `BI_FALSE`, the other marker of `bi` (10_state.md R28). -/
  biFalse : Word
  /-- `DVC_REM_SIGN` (42_arithmetic.md R137). -/
  dvcRemSign : RemSign
  /-- `OPCODE_MAP` (30_encoding.md R73). -/
  opcodeMap : OpcodeMap
  /-- `ARG_META`: the heap-relative addresses of the argument count and lengths (70_reset_and_hazards.md R266). -/
  argMeta : List Word
  deriving DecidableEq, Repr

/-- The marker word `BI_TRUE` of the standard configuration: OPEN (decision D8), so it has no body
(assumption 7). -/
opaque Config.openBiTrue : Word

/-- A free word from which `BI_FALSE` of the standard configuration is taken (assumption 7). -/
opaque Config.openBiSeed : Word

/-- The marker word `BI_FALSE` of the standard configuration: any word other than `BI_TRUE`. Every pair of distinct
words is a possible pair of markers (assumption 7). -/
def Config.openBiFalse : Word :=
  if Config.openBiSeed = Config.openBiTrue then Config.openBiTrue + 1 else Config.openBiSeed

/-- The addresses `ARG_META` of the standard configuration: OPEN (decision D32), so they have no body
(assumption 10). -/
opaque Config.openArgMeta : List Word

end Sys2Proof
end

