-- ==== Sys2Proof/WellFormed.lean ====
section
/-! DEFINITION. When an instruction is well formed: every register operand names one of the 16 registers
(30_encoding.md R77, R81). An ill-formed instruction still decodes; executing it raises InvalidRegister
(60_exceptions.md R243). -/

namespace Sys2Proof

/-- The register operands of an instruction, in operand order (the `R` kinds of 30_encoding.md R73). -/
def Instr.regOperands : Instr → List Word
  | .nop => []
  | .cop dst src => [dst, src]
  | .cpl dst _ => [dst]
  | .str addrReg valReg => [addrReg, valReg]
  | .ldr dst addrReg => [dst, addrReg]
  | .add src => [src]
  | .sub src => [src]
  | .twc reg => [reg]
  | .inc reg => [reg]
  | .dec reg => [reg]
  | .mul src => [src]
  | .div src => [src]
  | .dvc src => [src]
  | .xor src => [src]
  | .and src => [src]
  | .orr src => [src]
  | .not reg => [reg]
  | .shr reg amountReg => [reg, amountReg]
  | .shl reg amountReg => [reg, amountReg]
  | .psh valReg => [valReg]
  | .pop dst => [dst]
  | .ret => []
  | .cal _ => []
  | .cmp r1 r2 => [r1, r2]
  | .cle _ => []
  | .cln _ => []
  | .gto reg => [reg]
  | .gte reg => [reg]
  | .gtn reg => [reg]
  | .sth addrReg valReg => [addrReg, valReg]
  | .ldh dst addrReg => [dst, addrReg]
  | .vga => []

/-- Every register operand is a register id, 0 to 15 (30_encoding.md R81). -/
abbrev Instr.wellFormed (i : Instr) : Prop := i.regOperands.all (fun w => w.toNat < 16) = true

end Sys2Proof
end

