-- ==== Sys2Proof/Decode.lean ====
section
/-! DEFINITION. The Instruction Table, the decoder and the encoder (30_encoding.md R70 to R83). The table is shared by
the engine, the codec and the assembler (R76). -/

namespace Sys2Proof

/-! ### The Instruction Table (R73) -/

/-- The rows of the Instruction Table, in its order (30_encoding.md R73). -/
def Opcode.all : List Opcode :=
  [.nop, .cop, .cpl, .str, .ldr]
    ++ [.add, .sub, .twc, .inc, .dec, .mul, .div, .dvc]
    ++ [.xor, .and, .orr, .not, .shr, .shl]
    ++ [.psh, .pop, .ret, .cal, .cmp, .cle, .cln, .gto, .gte, .gtn]
    ++ [.sth, .ldh, .vga]

/-- The row of an opcode in the Instruction Table, counted from 0 (30_encoding.md R73). -/
def Opcode.index : Opcode → Fin 32
  | .nop => 0 | .cop => 1 | .cpl => 2 | .str => 3 | .ldr => 4
  | .add => 5 | .sub => 6 | .twc => 7 | .inc => 8 | .dec => 9 | .mul => 10 | .div => 11 | .dvc => 12
  | .xor => 13 | .and => 14 | .orr => 15 | .not => 16 | .shr => 17 | .shl => 18
  | .psh => 19 | .pop => 20 | .ret => 21 | .cal => 22 | .cmp => 23 | .cle => 24 | .cln => 25
  | .gto => 26 | .gte => 27 | .gtn => 28
  | .sth => 29 | .ldh => 30 | .vga => 31

/-- The operand kinds of an opcode, in operand order (the kind column of 30_encoding.md R73). -/
def Opcode.kinds : Opcode → List OperandKind
  | .nop => []
  | .cop => [.register, .register]
  | .cpl => [.register, .immediate]
  | .str => [.register, .register]
  | .ldr => [.register, .register]
  | .add => [.register]
  | .sub => [.register]
  | .twc => [.register]
  | .inc => [.register]
  | .dec => [.register]
  | .mul => [.register]
  | .div => [.register]
  | .dvc => [.register]
  | .xor => [.register]
  | .and => [.register]
  | .orr => [.register]
  | .not => [.register]
  | .shr => [.register, .register]
  | .shl => [.register, .register]
  | .psh => [.register]
  | .pop => [.register]
  | .ret => []
  | .cal => [.immediate]
  | .cmp => [.register, .register]
  | .cle => [.immediate]
  | .cln => [.immediate]
  | .gto => [.register]
  | .gte => [.register]
  | .gtn => [.register]
  | .sth => [.register, .register]
  | .ldh => [.register, .register]
  | .vga => []

/-- The operand count of an opcode (30_encoding.md R70, R73). -/
def Opcode.count (o : Opcode) : Nat := o.kinds.length

/-- The encoded size of an opcode's instruction, in words (30_encoding.md R70). -/
def Opcode.size (o : Opcode) : Nat := 1 + o.count

/-- The mnemonic of an opcode, as its characters (30_encoding.md R73). -/
def Opcode.mnemonic : Opcode → List Char
  | .nop => ['n', 'o', 'p']
  | .cop => ['c', 'o', 'p']
  | .cpl => ['c', 'p', 'l']
  | .str => ['s', 't', 'r']
  | .ldr => ['l', 'd', 'r']
  | .add => ['a', 'd', 'd']
  | .sub => ['s', 'u', 'b']
  | .twc => ['t', 'w', 'c']
  | .inc => ['i', 'n', 'c']
  | .dec => ['d', 'e', 'c']
  | .mul => ['m', 'u', 'l']
  | .div => ['d', 'i', 'v']
  | .dvc => ['d', 'v', 'c']
  | .xor => ['x', 'o', 'r']
  | .and => ['a', 'n', 'd']
  | .orr => ['o', 'r', 'r']
  | .not => ['n', 'o', 't']
  | .shr => ['s', 'h', 'r']
  | .shl => ['s', 'h', 'l']
  | .psh => ['p', 's', 'h']
  | .pop => ['p', 'o', 'p']
  | .ret => ['r', 'e', 't']
  | .cal => ['c', 'a', 'l']
  | .cmp => ['c', 'm', 'p']
  | .cle => ['c', 'l', 'e']
  | .cln => ['c', 'l', 'n']
  | .gto => ['g', 't', 'o']
  | .gte => ['g', 't', 'e']
  | .gtn => ['g', 't', 'n']
  | .sth => ['s', 't', 'h']
  | .ldh => ['l', 'd', 'h']
  | .vga => ['v', 'g', 'a']

/-- The opcode number of an opcode under an opcode map (30_encoding.md R73, R76). -/
def Opcode.number (m : OpcodeMap) (o : Opcode) : Word := m[o.index]

/-- The spec's default opcode map: 0x0000 to 0x001F in table order (30_encoding.md R73; decision D3). -/
def OpcodeMap.standard : OpcodeMap := Vector.ofFn fun k => BitVec.ofNat 16 k.val

/-- A map gives no number to two opcodes (30_encoding.md R73; decision D3 "another bijection"). -/
abbrev OpcodeMap.valid (m : OpcodeMap) : Prop := m.toList.Nodup

/-- The opcode a whole opcode word selects, if it has a row (30_encoding.md R74, R79). -/
def Opcode.ofNumber? (m : OpcodeMap) (w : Word) : Option Opcode :=
  Opcode.all.find? fun o => o.number m == w

/-- The opcode a mnemonic names, if it has a row (47_assembler.md R210). -/
def Opcode.ofMnemonic? (t : List Char) : Option Opcode :=
  Opcode.all.find? fun o => o.mnemonic == t

/-! ### Instructions and their words -/

/-- The instruction an opcode makes of its operand words; `b` is not used by an opcode of one operand, and neither is
used by an opcode of none (30_encoding.md R71, R73). -/
def Opcode.instr (o : Opcode) (a b : Word) : Instr :=
  match o with
  | .nop => .nop
  | .cop => .cop a b
  | .cpl => .cpl a b
  | .str => .str a b
  | .ldr => .ldr a b
  | .add => .add a
  | .sub => .sub a
  | .twc => .twc a
  | .inc => .inc a
  | .dec => .dec a
  | .mul => .mul a
  | .div => .div a
  | .dvc => .dvc a
  | .xor => .xor a
  | .and => .and a
  | .orr => .orr a
  | .not => .not a
  | .shr => .shr a b
  | .shl => .shl a b
  | .psh => .psh a
  | .pop => .pop a
  | .ret => .ret
  | .cal => .cal a
  | .cmp => .cmp a b
  | .cle => .cle a
  | .cln => .cln a
  | .gto => .gto a
  | .gte => .gte a
  | .gtn => .gtn a
  | .sth => .sth a b
  | .ldh => .ldh a b
  | .vga => .vga

/-- The opcode of an instruction. -/
def Instr.opcode : Instr → Opcode
  | .nop => .nop
  | .cop _ _ => .cop
  | .cpl _ _ => .cpl
  | .str _ _ => .str
  | .ldr _ _ => .ldr
  | .add _ => .add
  | .sub _ => .sub
  | .twc _ => .twc
  | .inc _ => .inc
  | .dec _ => .dec
  | .mul _ => .mul
  | .div _ => .div
  | .dvc _ => .dvc
  | .xor _ => .xor
  | .and _ => .and
  | .orr _ => .orr
  | .not _ => .not
  | .shr _ _ => .shr
  | .shl _ _ => .shl
  | .psh _ => .psh
  | .pop _ => .pop
  | .ret => .ret
  | .cal _ => .cal
  | .cmp _ _ => .cmp
  | .cle _ => .cle
  | .cln _ => .cln
  | .gto _ => .gto
  | .gte _ => .gte
  | .gtn _ => .gtn
  | .sth _ _ => .sth
  | .ldh _ _ => .ldh
  | .vga => .vga

/-- The operand words of an instruction, in the order of 30_encoding.md R73. -/
def Instr.operands : Instr → List Word
  | .nop => []
  | .cop dst src => [dst, src]
  | .cpl dst imm => [dst, imm]
  | .str addrReg valReg => [addrReg, valReg]
  | .ldr dst addrReg => [dst, addrReg]
  | .add src => [src]
  | .sub src => [src]
  | .twc reg => [reg]
  | .inc reg => [reg]
  | .dec reg => [reg]
  | .mul src => [src]
  | .div src => [src]
  | .dvc src => [src]
  | .xor src => [src]
  | .and src => [src]
  | .orr src => [src]
  | .not reg => [reg]
  | .shr reg amountReg => [reg, amountReg]
  | .shl reg amountReg => [reg, amountReg]
  | .psh valReg => [valReg]
  | .pop dst => [dst]
  | .ret => []
  | .cal addr => [addr]
  | .cmp r1 r2 => [r1, r2]
  | .cle addr => [addr]
  | .cln addr => [addr]
  | .gto reg => [reg]
  | .gte reg => [reg]
  | .gtn reg => [reg]
  | .sth addrReg valReg => [addrReg, valReg]
  | .ldh dst addrReg => [dst, addrReg]
  | .vga => []

/-- The encoded size of an instruction, in words (30_encoding.md R70). -/
def Instr.size (i : Instr) : Nat := i.opcode.size

/-! ### The decoder -/

/-- Why a sequence of words does not begin with an instruction. The engine and the codec give each reason its own
name of theirs (60_exceptions.md R241, R242; 46_codec.md R187). -/
inductive DecodeError where
  /-- There is no word at all. -/
  | noWords
  /-- The first word is the number of no opcode (30_encoding.md R79). -/
  | unknownOpcode (w : Word)
  /-- The words end before the opcode's operands do. -/
  | missingOperand (o : Opcode)
  deriving DecidableEq, Repr

/-- The first instruction of a sequence of words, with the words after it (30_encoding.md R70, R82). A register
operand is not checked here (30_encoding.md R77). -/
def decode (m : OpcodeMap) : List Word → Except DecodeError (Instr × List Word)
  | [] => .error .noWords
  | w :: rest =>
    match Opcode.ofNumber? m w with
    | none => .error (.unknownOpcode w)
    | some o =>
      if rest.length < o.count then .error (.missingOperand o)
      else .ok (o.instr (rest.getD 0 0) (rest.getD 1 0), rest.drop o.count)

/-- The words of a table word: its low `nbits` bits, cut into three 16-bit words, the first word in the least
significant bits; the bits above `nbits` are 0. -/
def tableWords (nbits w : Nat) : List Word :=
  let v := w % 2 ^ nbits
  [BitVec.ofNat 16 v, BitVec.ofNat 16 (v / 2 ^ 16), BitVec.ofNat 16 (v / 2 ^ 32)]

/-- The instruction the decoder reads from an instruction whose bits are `w`, numbered as spec/opcode_table.json
numbers them, under the spec's default opcode map. -/
def decodeTableWord (nbits w : Nat) : Option Instr :=
  match decode OpcodeMap.standard (tableWords nbits w) with
  | .ok (i, _) => some i
  | .error _ => none

/-! ### The encoder -/

/-- The words of an instruction: its opcode number, then its operand words (30_encoding.md R70, R71). -/
def encode (m : OpcodeMap) (i : Instr) : List Word := i.opcode.number m :: i.operands

end Sys2Proof
end

