-- ==== Sys2Proof/Machine/Standard.lean ====
section
/-! DEFINITION. The standard configuration: the default of every parameter of 00_scope.md R8, and the check of
00_scope.md R9. -/

namespace Sys2Proof

/-- What the parameters must satisfy: `STACK_MIN <= STACK_MAX < 0xFFFE`, `PROGRAM_OFFSET = STACK_MAX + 1` and
`BI_TRUE` other than `BI_FALSE` (00_scope.md R9), and an opcode map that numbers no two opcodes alike
(decision D3; assumption 9). -/
abbrev Config.valid (c : Config) : Prop :=
  c.stackMin ≤ c.stackMax ∧ c.stackMax < 0xFFFE ∧ c.programOffset = c.stackMax + 1
    ∧ c.biTrue ≠ c.biFalse ∧ c.opcodeMap.valid

/-- The defaults of 00_scope.md R8, with the OPEN parameters left free (assumptions 4 to 10). -/
def Config.standard : Config where
  memDefault := 0x0000
  regReset := 0x0000
  stackMin := 0x0800
  stackMax := 0x0FFF
  programOffset := 0x1000
  biTrue := Config.openBiTrue
  biFalse := Config.openBiFalse
  dvcRemSign := .magnitude
  opcodeMap := OpcodeMap.standard
  argMeta := Config.openArgMeta

end Sys2Proof
end

