-- ==== Sys2Proof/Machine/State.lean ====
section
/-! DEFINITION. The machine's state (10_state.md R34), why it stops (60_exceptions.md R240 to R245), and the state
after reset (10_state.md R37). -/

namespace Sys2Proof.Machine

/-- The kinds of fatal run-time error, a closed set (60_exceptions.md R241 to R245). A step that meets one answers a
NEXT state whose fault record holds it, as 60_exceptions.md R240 describes; no step answers Host.Outcome.fault
(assumption 1). -/
inductive Fault where
  /-- Raised by the fetch of every step: the opcode word has no row in the Instruction Table (R241). Safe: the spec
  names this stop. -/
  | unknownOpcode
  /-- Raised by the fetch of every step: an operand word of the instruction would lie at address 0xFFFF (R242). Safe:
  the spec chose this stop where its source says nothing (D16). -/
  | operandAtHaltAddress
  /-- Raised by every instruction with a register operand: the operand word is above 15 (R243). Safe: the spec chose
  this stop (D15). -/
  | invalidRegister
  /-- Raised by `div` and `dvc`: the divisor register holds 0 (R244). Safe: the spec chose this stop (D10). -/
  | divideByZero
  /-- Raised by `cle`, `cln`, `gte` and `gtn`: `bi` holds neither marker word (R245). Safe: the spec chose this stop
  (D9). -/
  | biIndeterminate
  deriving DecidableEq, Repr

/-- Why an instruction would have no meaning. -/
inductive Refusal where
  /-- The instruction has no meaning in the model yet: raised by an arm of `exec` only. No arm raises it: all 32
  instructions have their meaning. Safe. -/
  | notModelled (mnemonic : String)
  deriving DecidableEq, Repr

/-- One `Redraw` event: a copy of the text region `[0, STACK_MIN)` as it stood when `vga` executed
(45_heap_video.md R172). -/
structure Redraw where
  text : List Word
  deriving DecidableEq, Repr

/-- The address space: (address, word) pairs, addresses strictly rising, no word equal to what an unlisted address
reads as (20_memory.md R50, R51; assumption 2). -/
abbrev Memory := List (Nat × Word)

/-- The engine state (10_state.md R34), with the configuration beside it. -/
structure State where
  /-- The register file `x`: ids 0 to 9 `r0`..`r9`, then `pc`, `sp`, `ac`, `ex`, `bi`, `lc` (R20, R21). -/
  regs : Vector Word 16
  /-- The address space `M` (20_memory.md R50). -/
  mem : Memory
  /-- The hidden heap base (R32). -/
  heapOffset : Word
  /-- The fault record: the kind, and the address of the faulting instruction (60_exceptions.md R240). -/
  fault : Option (Fault × Word)
  /-- The output trace, oldest event first (R33). -/
  trace : List Redraw
  /-- The parameters of 00_scope.md R8: configuration, which nothing changes (assumption 3). -/
  cfg : Config
  deriving DecidableEq, Repr

/-- What a step, and every meaning, answers. -/
abbrev Result := Host.Outcome State Fault Refusal

/-- What a step reports (40_execution_cycle.md R101, R108). -/
inductive Status where
  | running
  | halted
  | faulted
  deriving DecidableEq, Repr

/-- The state after load (10_state.md R37) with a program of no words: every register `REG_RESET` but `sp`, which is
`STACK_MAX`, and `pc`, which is `PROGRAM_OFFSET`; the halt sentinel on the stack; everything else never written
(assumption 11). -/
def State.reset : State where
  regs := ((Vector.replicate 16 Config.standard.regReset).set 10 Config.standard.programOffset).set 11
    Config.standard.stackMax
  mem := [(Config.standard.stackMax.toNat, haltWord)]
  heapOffset := Config.standard.programOffset
  fault := none
  trace := []
  cfg := Config.standard

end Sys2Proof.Machine
end

