-- ==== Sys2Proof/Machine/Ops.lean ====
section
/-! DEFINITION. The named operations over memory, registers, the stack, the trace and the fault record, from which
every meaning is built. -/

namespace Sys2Proof.Machine

/-! ### Memory (20_memory.md) -/

/-- The word at an address; an address no cell lists reads as `d`, the `MEM_DEFAULT` (20_memory.md R51). -/
def Memory.read (d : Word) : Memory → Nat → Word
  | [], _ => d
  | (b, v) :: m, a => if b = a then v else Memory.read d m a

/-- Put a cell into its place in a rising list, over the cell of the same address. -/
def Memory.insert (a : Nat) (v : Word) : Memory → Memory
  | [] => [(a, v)]
  | (b, w) :: m =>
    if a < b then (a, v) :: (b, w) :: m
    else if a = b then (a, v) :: m
    else (b, w) :: Memory.insert a v m

/-- Remove the cells of an address. -/
def Memory.erase (a : Nat) (m : Memory) : Memory := m.filter fun c => c.1 ≠ a

/-- Set the word at an address (20_memory.md R52), keeping the canonical form: writing what an unlisted address reads
as removes the cell. -/
def Memory.write (d : Word) (m : Memory) (a : Nat) (v : Word) : Memory :=
  if v = d then Memory.erase a m else Memory.insert a v m

/-- The canonical form: addresses strictly rising and inside the 65536 words of the address space, and no cell
holding what an unlisted address reads as (20_memory.md R50, R51). -/
abbrev Memory.wf (d : Word) (m : Memory) : Prop :=
  m.Pairwise (fun c c' => c.1 < c'.1) ∧ ∀ c ∈ m, c.1 < 65536 ∧ c.2 ≠ d

/-- `MemRead(a)` (20_memory.md R51). Total: no address faults (R52). -/
def State.memRead (s : State) (a : Word) : Word := Memory.read s.cfg.memDefault s.mem a.toNat

/-- `MemWrite(a, v)` (20_memory.md R52). Total: no address faults, 0xFFFF included (R54). -/
def State.memWrite (s : State) (a v : Word) : State :=
  { s with mem := Memory.write s.cfg.memDefault s.mem a.toNat v }

/-- Write words at consecutive addresses, from `a` on, the first word first. -/
def State.memWriteAll (s : State) (a : Word) : List Word → State
  | [] => s
  | v :: vs => (s.memWrite a v).memWriteAll (a + 1) vs

/-! ### Registers (10_state.md R20 to R31) -/

/-- `x[i]` (10_state.md R23). -/
def State.reg (s : State) (r : RegId) : Word := s.regs[r]

/-- `x[i] <- v` (10_state.md R22, R23): no register is hardwired, and none is read-only. -/
def State.setReg (s : State) (r : RegId) (v : Word) : State := { s with regs := s.regs.set r v }

/-- `pc`, register 10 (10_state.md R24). -/
abbrev State.pc (s : State) : Word := s.reg .pc
/-- `sp`, register 11 (10_state.md R25). -/
abbrev State.sp (s : State) : Word := s.reg .sp
/-- `ac`, register 12 (10_state.md R26). -/
abbrev State.ac (s : State) : Word := s.reg .ac
/-- `ex`, register 13 (10_state.md R27). -/
abbrev State.ex (s : State) : Word := s.reg .ex
/-- `bi`, register 14 (10_state.md R28). -/
abbrev State.bi (s : State) : Word := s.reg .bi
/-- `lc`, register 15 (10_state.md R29). -/
abbrev State.lc (s : State) : Word := s.reg .lc

/-- A write to `pc`: a jump (40_execution_cycle.md R107). -/
def State.jump (s : State) (target : Word) : State := s.setReg .pc target

/-- Advance past an instruction of `size` words: `lc <- p`, then `pc <- (p + size) mod 2^16`
(40_execution_cycle.md R104). -/
def State.advance (s : State) (size : Nat) : State :=
  (s.setReg .lc s.pc).setReg .pc (s.pc + BitVec.ofNat 16 size)

/-! ### Faults (60_exceptions.md R240, R251) -/

/-- `raise kind(p)`: record the fault and touch nothing else. There is no trap entry: no register is saved, no mode
changes and control goes nowhere; a later step changes nothing (60_exceptions.md R240, R251). There is no return from
a fault either (R252): only a new load clears the record. -/
def State.raise (s : State) (kind : Fault) (p : Word) : State := { s with fault := some (kind, p) }

/-- A fault of the execute phase: `lc` holds the address of the instruction (40_execution_cycle.md R106, R109). -/
def State.raiseHere (s : State) (kind : Fault) : State := s.raise kind s.lc

/-- What the state reports: a fault record is `Faulted`, else `pc = 0xFFFF` is `Halted`, else `Running`
(40_execution_cycle.md R101, R108; 10_state.md R35). -/
def State.status (s : State) : Status :=
  if s.fault.isSome then .faulted else if s.pc = haltWord then .halted else .running

/-! ### The stack (44_stack_control.md R150) -/

/-- The address a push stores to: `(sp - 1) mod 2^16`. -/
def State.pushAddr (s : State) : Word := s.sp - 1

/-- `push(v)`: pre-decrement `sp`, then store (44_stack_control.md R150). -/
def State.push (s : State) (v : Word) : State := (s.setReg .sp s.pushAddr).memWrite s.pushAddr v

/-- The word `pop()` returns: the one at `sp` (44_stack_control.md R150). -/
def State.popValue (s : State) : Word := s.memRead s.sp

/-- The state after `pop()`: `sp` post-incremented, the word left in memory (44_stack_control.md R150, R153). -/
def State.popped (s : State) : State := s.setReg .sp (s.sp + 1)

/-- Push the return address, which `pc` holds, and jump (44_stack_control.md R155). -/
def State.call (s : State) (target : Word) : State := (s.push s.pc).jump target

/-! ### The heap base and the video call-out (45_heap_video.md) -/

/-- The address an offset names relative to the heap base: `(o + heapOffset) mod 2^16` (45_heap_video.md R170). -/
def State.heapAddr (s : State) (offset : Word) : Word := offset + s.heapOffset

/-- The words of the text region `[0, STACK_MIN)` (20_memory.md R53; 45_heap_video.md R172). -/
def State.textRegion (s : State) : List Word :=
  (List.range s.cfg.stackMin.toNat).map fun a => s.memRead (BitVec.ofNat 16 a)

/-- `emit Redraw(M[0 .. STACK_MIN - 1])`: append one event to the trace (45_heap_video.md R172). -/
def State.emitRedraw (s : State) : State := { s with trace := s.trace ++ [⟨s.textRegion⟩] }

end Sys2Proof.Machine
end

