-- ==== Sys2Proof/Machine/Operands.lean ====
section
/-! DEFINITION. Operand assembly (30_encoding.md R77, R78): a register operand is checked before any effect of its
instruction; an immediate operand is the whole word, used as it stands, and needs no operation. -/

namespace Sys2Proof.Machine

/-- The register a register operand word names, if the word is at most 15: never masked or reduced modulo 16
(30_encoding.md R77). -/
def regId? (w : Word) : Option RegId :=
  if h : w.toNat < 16 then some ⟨w.toNat, h⟩ else none

/-- Go on with the register a register operand names, or raise `InvalidRegister` before any effect of the
instruction (40_execution_cycle.md R105; 60_exceptions.md R243). -/
def withReg (w : Word) (s : State) (go : RegId → Result) : Result :=
  match regId? w with
  | some r => go r
  | none => .next (s.raiseHere .invalidRegister)

end Sys2Proof.Machine
end

