-- ==== Sys2Proof/Machine/Arithmetic.lean ====
section
/-! DEFINITION. Arithmetic: add, sub, twc, inc, dec, mul, div, dvc (42_arithmetic.md). Every result is a word modulo
2^16; no instruction here writes a flag (R139; 10_state.md R30). -/

namespace Sys2Proof.Machine

/-- Two's-complement negation, `(~v + 1) mod 2^16` (00_scope.md R11; 42_arithmetic.md R132). -/
def twc (v : Word) : Word := ~~~v + 1

/-- Replace the accumulator by a function of it and of a source register, both read first
(40_execution_cycle.md R106). -/
def accumulate (f : Word → Word → Word) (src : Word) (s : State) : Result :=
  withReg src s fun r => .next (s.setReg .ac (f s.ac (s.reg r)))

/-- Replace a register by a function of itself. -/
def inPlace (f : Word → Word) (reg : Word) (s : State) : Result :=
  withReg reg s fun r => .next (s.setReg r (f (s.reg r)))

/-- Unsigned division: quotient and remainder (R136). -/
def divUnsigned (c s : Word) : Word × Word := (c / s, c % s)

/-- The magnitude of a word read in two's complement, a natural 0 to 32768 (R137). -/
def magnitude (v : Word) : Nat := if v.msb then (twc v).toNat else v.toNat

/-- Signed division on sign and magnitude: the quotient negated if the signs differ; the remainder's sign by
`DVC_REM_SIGN` (R137). -/
def divSigned (sign : RemSign) (c s : Word) : Word × Word :=
  let q := BitVec.ofNat 16 (magnitude c / magnitude s)
  let r := BitVec.ofNat 16 (magnitude c % magnitude s)
  (if c.msb ≠ s.msb then twc q else q, if sign = .dividend ∧ c.msb then twc r else r)

/-- Divide the accumulator by a register: `ac` takes the quotient and `ex` the remainder; a zero divisor raises
`DivideByZero` and writes neither (R136 to R138; 60_exceptions.md R244). -/
def divideBy (qr : Word → Word → Word × Word) (src : Word) (s : State) : Result :=
  withReg src s fun r =>
    .next <|
      if s.reg r = 0 then s.raiseHere .divideByZero
      else (s.setReg .ac (qr s.ac (s.reg r)).1).setReg .ex (qr s.ac (s.reg r)).2

/-- `add src`: `ac <- (ac + x[src]) mod 2^16` (R130). -/
def execAdd (src : Word) (s : State) : Result := accumulate (fun c v => c + v) src s

/-- `sub src`: `ac <- (ac + twc(x[src])) mod 2^16` (R131). -/
def execSub (src : Word) (s : State) : Result := accumulate (fun c v => c + twc v) src s

/-- `twc reg`: `x[reg] <- (~x[reg] + 1) mod 2^16` (R132). -/
def execTwc (reg : Word) (s : State) : Result := inPlace twc reg s

/-- `inc reg`: `x[reg] <- (x[reg] + 1) mod 2^16` (R133). -/
def execInc (reg : Word) (s : State) : Result := inPlace (fun v => v + 1) reg s

/-- `dec reg`: `x[reg] <- (x[reg] + twc(1)) mod 2^16` (R134). -/
def execDec (reg : Word) (s : State) : Result := inPlace (fun v => v + twc 1) reg s

/-- `mul src`: `ac <- (ac * x[src]) mod 2^16`; `ex` is not written (R135). -/
def execMul (src : Word) (s : State) : Result :=
  accumulate (fun c v => BitVec.ofNat 16 (c.toNat * v.toNat)) src s

/-- `div src`: unsigned division of the accumulator (R136). -/
def execDiv (src : Word) (s : State) : Result := divideBy divUnsigned src s

/-- `dvc src`: signed division of the accumulator (R137). -/
def execDvc (src : Word) (s : State) : Result := divideBy (divSigned s.cfg.dvcRemSign) src s

end Sys2Proof.Machine
end

