-- ==== Sys2Proof/Machine/DataMovement.lean ====
section
/-! DEFINITION. Data movement: nop, cop, cpl, str, ldr (41_data_movement.md). A meaning runs on the state the step has
already advanced: `pc` holds the next instruction's address, `lc` this one's. -/

namespace Sys2Proof.Machine

/-- `nop`: no effect (R120). -/
def execNop (s : State) : Result := .next s

/-- `cop dst src`: `v <- x[src]; x[dst] <- v` (R121). -/
def execCop (dst src : Word) (s : State) : Result :=
  withReg dst s fun d => withReg src s fun r => .next (s.setReg d (s.reg r))

/-- `cpl dst imm`: `x[dst] <- imm` (R122). -/
def execCpl (dst imm : Word) (s : State) : Result :=
  withReg dst s fun d => .next (s.setReg d imm)

/-- `str addrReg valReg`: `MemWrite(x[addrReg], x[valReg])` (R123). -/
def execStr (addrReg valReg : Word) (s : State) : Result :=
  withReg addrReg s fun a => withReg valReg s fun v => .next (s.memWrite (s.reg a) (s.reg v))

/-- `ldr dst addrReg`: `x[dst] <- MemRead(x[addrReg])` (R124). -/
def execLdr (dst addrReg : Word) (s : State) : Result :=
  withReg dst s fun d => withReg addrReg s fun a => .next (s.setReg d (s.memRead (s.reg a)))

end Sys2Proof.Machine
end

