-- ==== Sys2Proof/Machine/HeapVideo.lean ====
section
/-! DEFINITION. Heap-relative access and video: sth, ldh, vga (45_heap_video.md). -/

namespace Sys2Proof.Machine

/-- `sth addrReg valReg`: `MemWrite((x[addrReg] + heapOffset) mod 2^16, x[valReg])` (R170). -/
def execSth (addrReg valReg : Word) (s : State) : Result :=
  withReg addrReg s fun a => withReg valReg s fun v => .next (s.memWrite (s.heapAddr (s.reg a)) (s.reg v))

/-- `ldh dst addrReg`: `x[dst] <- MemRead((x[addrReg] + heapOffset) mod 2^16)` (R171). -/
def execLdh (dst addrReg : Word) (s : State) : Result :=
  withReg dst s fun d => withReg addrReg s fun a => .next (s.setReg d (s.memRead (s.heapAddr (s.reg a))))

/-- `vga`: emit one `Redraw` of the text region; no register and no memory word changes (R172). -/
def execVga (s : State) : Result := .next s.emitRedraw

end Sys2Proof.Machine
end

