-- ==== Sys2Proof/Machine/LogicShift.lean ====
section
/-! DEFINITION. Logic and shifts: xor, and, orr, not, shr, shl (43_logic_shift.md). -/

namespace Sys2Proof.Machine

/-- Logical shift right by an unsigned amount: zeros enter at bit 15; an amount of 16 or more gives 0; the amount is
not masked (R144). -/
def shiftRight (v k : Word) : Word := if 16 ≤ k.toNat then 0 else v >>> k.toNat

/-- Logical shift left by an unsigned amount: zeros enter at bit 0; an amount of 16 or more gives 0; the amount is
not masked (R145). -/
def shiftLeft (v k : Word) : Word := if 16 ≤ k.toNat then 0 else v <<< k.toNat

/-- Replace a register by a shift of it by another register, both read first (R144, R145). -/
def shiftInPlace (f : Word → Word → Word) (reg amountReg : Word) (s : State) : Result :=
  withReg reg s fun r => withReg amountReg s fun k => .next (s.setReg r (f (s.reg r) (s.reg k)))

/-- `xor src`: `ac <- ac ^ x[src]` (R140). -/
def execXor (src : Word) (s : State) : Result := accumulate (fun c v => c ^^^ v) src s

/-- `and src`: `ac <- ac & x[src]` (R141). -/
def execAnd (src : Word) (s : State) : Result := accumulate (fun c v => c &&& v) src s

/-- `orr src`: `ac <- ac | x[src]` (R142). -/
def execOrr (src : Word) (s : State) : Result := accumulate (fun c v => c ||| v) src s

/-- `not reg`: `x[reg] <- ~x[reg]` (R143). -/
def execNot (reg : Word) (s : State) : Result := inPlace (fun v => ~~~v) reg s

/-- `shr reg amountReg` (R144). -/
def execShr (reg amountReg : Word) (s : State) : Result := shiftInPlace shiftRight reg amountReg s

/-- `shl reg amountReg` (R145). -/
def execShl (reg amountReg : Word) (s : State) : Result := shiftInPlace shiftLeft reg amountReg s

end Sys2Proof.Machine
end

