-- ==== Sys2Proof/Machine/Flags.lean ====
section
/-! DEFINITION. The only condition state is the register `bi`, which holds one of two marker words after `cmp`
(10_state.md R28, R30). -/

namespace Sys2Proof.Machine

/-- The marker word of a truth value: `BI_TRUE` or `BI_FALSE` (44_stack_control.md R156). -/
def State.marker (s : State) (b : Bool) : Word := if b then s.cfg.biTrue else s.cfg.biFalse

/-- `bi <- if u = w then BI_TRUE else BI_FALSE`: equality of whole words (44_stack_control.md R156). -/
def State.setCond (s : State) (u w : Word) : State := s.setReg .bi (s.marker (u == w))

/-- `cond()`: what `bi` says, or nothing when it holds neither marker (44_stack_control.md R151). -/
def State.cond? (s : State) : Option Bool :=
  if s.bi = s.cfg.biTrue then some true
  else if s.bi = s.cfg.biFalse then some false
  else none

/-- Act if the condition is `want`, do nothing if it is the other one, raise `BiIndeterminate` if `bi` holds neither
marker (44_stack_control.md R151, R157 to R161). -/
def State.ifCond (s : State) (want : Bool) (act : State → State) : State :=
  match s.cond? with
  | some b => if b = want then act s else s
  | none => s.raiseHere .biIndeterminate

end Sys2Proof.Machine
end

