-- ==== Sys2Proof/Machine/StackControl.lean ====
section
/-! DEFINITION. Stack and control transfer: psh, pop, ret, cal, cmp, cle, cln, gto, gte, gtn (44_stack_control.md).
Every target is an absolute word address (R162). -/

namespace Sys2Proof.Machine

/-- `psh valReg`: `push(x[valReg])`, the value read before `sp` is decremented (R152). -/
def execPsh (valReg : Word) (s : State) : Result := withReg valReg s fun r => .next (s.push (s.reg r))

/-- `pop dst`: `v <- pop(); x[dst] <- v`, the destination written after `sp` is incremented (R153). R163 calls
`psh pc; pop pc` an endless loop; by R153 the `pop`, run again, pops the next stack word, and the model follows R153
(assumption 42). -/
def execPop (dst : Word) (s : State) : Result := withReg dst s fun d => .next (s.popped.setReg d s.popValue)

/-- `ret`: `v <- pop(); pc <- v` (R154). -/
def execRet (s : State) : Result := .next (s.popped.jump s.popValue)

/-- `cal addr`: push the address of the next instruction, jump to `addr` (R155). -/
def execCal (addr : Word) (s : State) : Result := .next (s.call addr)

/-- `cmp r1 r2`: `bi` takes a marker by equality of the two registers (R156). -/
def execCmp (r1 r2 : Word) (s : State) : Result :=
  withReg r1 s fun a => withReg r2 s fun b => .next (s.setCond (s.reg a) (s.reg b))

/-- `cle addr`: call if `bi` is true (R157). -/
def execCle (addr : Word) (s : State) : Result := .next (s.ifCond true fun s => s.call addr)

/-- `cln addr`: call if `bi` is false (R158). -/
def execCln (addr : Word) (s : State) : Result := .next (s.ifCond false fun s => s.call addr)

/-- `gto reg`: jump through a register (R159). -/
def execGto (reg : Word) (s : State) : Result := withReg reg s fun r => .next (s.jump (s.reg r))

/-- `gte reg`: jump through a register if `bi` is true (R160). -/
def execGte (reg : Word) (s : State) : Result :=
  withReg reg s fun r => .next (s.ifCond true fun s => s.jump (s.reg r))

/-- `gtn reg`: jump through a register if `bi` is false (R161). -/
def execGtn (reg : Word) (s : State) : Result :=
  withReg reg s fun r => .next (s.ifCond false fun s => s.jump (s.reg r))

end Sys2Proof.Machine
end

