-- ==== Sys2Proof/Machine/Dispatch.lean ====
section
/-! DEFINITION. The dispatch: one arm per constructor of Instr, each one call of its meaning (30_encoding.md R75). -/

namespace Sys2Proof.Machine

/-- The execute phase of an instruction, on the state the step has advanced (40_execution_cycle.md R105). -/
def exec (i : Instr) (s : State) : Host.Outcome State Fault Refusal :=
  match i with
  | .nop => Sys2Proof.Machine.execNop s
  | .cop dst src => Sys2Proof.Machine.execCop dst src s
  | .cpl dst imm => Sys2Proof.Machine.execCpl dst imm s
  | .str addrReg valReg => Sys2Proof.Machine.execStr addrReg valReg s
  | .ldr dst addrReg => Sys2Proof.Machine.execLdr dst addrReg s
  | .add src => Sys2Proof.Machine.execAdd src s
  | .sub src => Sys2Proof.Machine.execSub src s
  | .twc reg => Sys2Proof.Machine.execTwc reg s
  | .inc reg => Sys2Proof.Machine.execInc reg s
  | .dec reg => Sys2Proof.Machine.execDec reg s
  | .mul src => Sys2Proof.Machine.execMul src s
  | .div src => Sys2Proof.Machine.execDiv src s
  | .dvc src => Sys2Proof.Machine.execDvc src s
  | .xor src => Sys2Proof.Machine.execXor src s
  | .and src => Sys2Proof.Machine.execAnd src s
  | .orr src => Sys2Proof.Machine.execOrr src s
  | .not reg => Sys2Proof.Machine.execNot reg s
  | .shr reg amountReg => Sys2Proof.Machine.execShr reg amountReg s
  | .shl reg amountReg => Sys2Proof.Machine.execShl reg amountReg s
  | .psh valReg => Sys2Proof.Machine.execPsh valReg s
  | .pop dst => Sys2Proof.Machine.execPop dst s
  | .ret => Sys2Proof.Machine.execRet s
  | .cal addr => Sys2Proof.Machine.execCal addr s
  | .cmp r1 r2 => Sys2Proof.Machine.execCmp r1 r2 s
  | .cle addr => Sys2Proof.Machine.execCle addr s
  | .cln addr => Sys2Proof.Machine.execCln addr s
  | .gto reg => Sys2Proof.Machine.execGto reg s
  | .gte reg => Sys2Proof.Machine.execGte reg s
  | .gtn reg => Sys2Proof.Machine.execGtn reg s
  | .sth addrReg valReg => Sys2Proof.Machine.execSth addrReg valReg s
  | .ldh dst addrReg => Sys2Proof.Machine.execLdh dst addrReg s
  | .vga => Sys2Proof.Machine.execVga s

end Sys2Proof.Machine
end

