-- ==== Sys2Proof/Machine/Fetch.lean ====
section
/-! DEFINITION. Fetch and decode (40_execution_cycle.md R102, R103), and where a test word is placed. -/

namespace Sys2Proof.Machine

/-- The words at `p`, `p + 1`, …, at most `n` of them, none at 0xFFFF or beyond: an instruction word never lies at
0xFFFF (20_memory.md R54). -/
def State.wordsFrom (s : State) (p : Word) : Nat → List Word
  | 0 => []
  | n + 1 => if p = haltWord then [] else s.memRead p :: s.wordsFrom (p + 1) n

/-- The instruction at `pc`, or the fault its fetch raises: `UnknownOpcode` if the opcode word has no row, else
`OperandAtHaltAddress` if an operand word would lie at 0xFFFF (40_execution_cycle.md R103; 60_exceptions.md R241,
R242, R247). At `pc = 0xFFFF` the step has halted before it fetches (R101). -/
def State.fetch (s : State) : Except Fault Instr :=
  match decode s.cfg.opcodeMap (s.wordsFrom s.pc 3) with
  | .ok (i, _) => .ok i
  | .error (.missingOperand _) => .error .operandAtHaltAddress
  | .error (.unknownOpcode _) => .error .unknownOpcode
  | .error .noWords => .error .unknownOpcode

/-- The address a test word is placed at: `pc`, or 0x1000 where three instruction words at `pc` would reach
0xFFFF (assumption 12). -/
def State.fetchAddr (s : State) : Word := if s.pc.toNat < 0xFFFD then s.pc else 0x1000

/-- Place words where the next step fetches its instruction: the engine is neither faulted nor halted, and the words
stand at `pc` (assumption 12). -/
def State.placeAtFetch (s : State) (ws : List Word) : State :=
  ({ s with fault := none }.setReg .pc s.fetchAddr).memWriteAll s.fetchAddr ws

end Sys2Proof.Machine
end

