-- ==== Sys2Proof/Machine/Step.lean ====
section
/-! DEFINITION. The step: one whole instruction (40_execution_cycle.md R100 to R109). -/

namespace Sys2Proof.Machine

/-- One step (40_execution_cycle.md R109): nothing changes on a faulted or a halted engine; a decode-phase fault changes
nothing but the fault record; otherwise `lc` and `pc` are advanced and the instruction executes. What the step reports
is `State.status` of the state it answers (R101, R108). -/
def step (s : State) : Host.Outcome State Fault Refusal :=
  match s.status with
  | .faulted => .next s
  | .halted => .next s
  | .running =>
    match s.fetch with
    | .error kind => .next (s.raise kind s.pc)
    | .ok i => exec i (s.advance i.size)

/-- The state with the instruction of a table word stored where the next step fetches (the bits above `nbits`
are 0; an instruction has at most three words). -/
def State.withFetchWord (s : State) (nbits w : Nat) : State := s.placeAtFetch (tableWords nbits w)

end Sys2Proof.Machine
end

