-- ==== Sys2Proof/Machine/Codec.lean ====
section
/-! DEFINITION. The Program and the binary codec, the SVB format (46_codec.md). The constant addresses, the opcode
numbers and the program base come from the configuration. -/

namespace Sys2Proof.Machine

/-! ### Programs (R180) -/

/-- A program: its constant words, the `k`-th at `PROGRAM_OFFSET + k`, and its subroutines in program order. The entry
is the last subroutine (R180, R188). -/
structure Program where
  consts : List Word
  subs : List (List Instr)
  deriving DecidableEq, Repr

/-- The length of a subroutine in words (R183). -/
def subSize (is : List Instr) : Nat := (is.map Instr.size).sum

/-- The words of a subroutine, its instructions in declaration order with no padding (R184). -/
def subWords (m : OpcodeMap) (is : List Instr) : List Word := is.flatMap (encode m)

/-- The program size in words: constants and code (R188; 70_reset_and_hazards.md R263). -/
def Program.size (p : Program) : Nat := p.consts.length + (p.subs.map subSize).sum

/-- The words of a program as they stand in memory from `PROGRAM_OFFSET` on (70_reset_and_hazards.md R263). -/
def Program.words (m : OpcodeMap) (p : Program) : List Word := p.consts ++ p.subs.flatMap (subWords m)

/-- The entry address: that of the last subroutine (R180, R188). -/
def Program.entry (c : Config) (p : Program) : Nat :=
  c.programOffset.toNat + p.consts.length + (p.subs.dropLast.map subSize).sum

/-- A valid program: at least one subroutine, and no word at 0xFFFF. That the constants are sequential, that every
opcode has a row and that no instruction crosses its subroutine's end hold of every Program by its form (R188). -/
abbrev Program.valid (c : Config) (p : Program) : Prop :=
  p.subs ≠ [] ∧ c.programOffset.toNat + p.size ≤ 0xFFFF

/-! ### Bytes and words (R181, R182) -/

/-- The bytes of a word: `w[15:8]`, then `w[7:0]` (R182). -/
def wordBytes (w : Word) : List Byte := [w.extractLsb' 8 8, w.extractLsb' 0 8]

/-- The word of two bytes, the high one first (R182). -/
def bytesWord (hi lo : Byte) : Word := hi ++ lo

/-- The words of a byte sequence; a last odd byte is dropped (R182). -/
def bytesWords : List Byte → List Word
  | hi :: lo :: rest => bytesWord hi lo :: bytesWords rest
  | _ => []

/-- The magic bytes "SVCB" (R181). -/
def magic : List Byte := [0x53, 0x56, 0x43, 0x42]

/-! ### Encoding (R183, R184) -/

/-- One (address, value) pair per constant word, addresses ascending from `a` (R183). -/
def constPairs (a : Word) : List Word → List Word
  | [] => []
  | v :: vs => a :: v :: constPairs (a + 1) vs

/-- A subroutine's length word and its words (R183). -/
def subSection (m : OpcodeMap) (is : List Instr) : List Word :=
  BitVec.ofNat 16 (subSize is) :: subWords m is

/-- The word stream of a program (R183). -/
def streamWords (c : Config) (p : Program) : List Word :=
  constPairs c.programOffset p.consts ++ haltWord :: (p.subs.flatMap (subSection c.opcodeMap) ++ [haltWord])

/-- `encode(P)`: the magic, then the word stream, big-endian (R184). The spec gives bytes for a valid Program only; what
this answers for one that is not, with lengths and addresses taken modulo 2^16, is the model's choice
(assumption 45). -/
def encodeProgram (c : Config) (p : Program) : List Byte := magic ++ (streamWords c p).flatMap wordBytes

/-! ### Decoding (R185 to R189) -/

/-- The decode errors, a closed set, each with its context (R189). -/
inductive CodecError where
  /-- Fewer than 4 bytes, or the first 4 are not "SVCB". -/
  | badMagic
  /-- An odd body length, a missing sentinel, a pair cut short, or a subroutine running past the end. -/
  | truncated (index : Nat)
  /-- A constant's address is not `PROGRAM_OFFSET + k`. -/
  | constantAddress (index : Nat) (address : Word)
  /-- An opcode word absent from the table. -/
  | unknownOpcode (opcode : Word) (index : Nat)
  /-- An instruction's operands run past its subroutine's length. -/
  | instructionCrossesSubroutine (index : Nat)
  /-- Words after the end sentinel. -/
  | trailingData (index : Nat)
  /-- No subroutine, so no entry point. -/
  | noSubroutine
  /-- The program would occupy address 0xFFFF; its size `m + sum(L)` in words, the program size of
  70_reset_and_hazards.md R263. -/
  | programTooLarge (size : Nat)
  deriving DecidableEq, Repr

/-- The constant section from word index `i` on, the next address expected being `next`: the constants, the index
after the separating sentinel, and the words there (R185, R186). -/
def decodeConsts (next i : Nat) : List Word → Except CodecError (List Word × Nat × List Word)
  | [] => .error (.truncated i)
  | [w] => if w = haltWord then .ok ([], i + 1, []) else .error (.truncated (i + 1))
  | w :: v :: rest =>
    if w = haltWord then .ok ([], i + 1, v :: rest)
    else if w.toNat ≠ next then .error (.constantAddress i w)
    else
      match decodeConsts (next + 1) (i + 2) rest with
      | .error e => .error e
      | .ok (cs, r) => .ok (v :: cs, r)

/-- `split`: cut a subroutine's words, which begin at word index `i`, into instructions (R187). The first argument
bounds the number of instructions; the number of words is enough. -/
def splitSub (m : OpcodeMap) : Nat → Nat → List Word → Except CodecError (List Instr)
  | _, _, [] => .ok []
  | 0, i, _ :: _ => .error (.truncated i)
  | n + 1, i, w :: ws =>
    match decode m (w :: ws) with
    | .error (.unknownOpcode op) => .error (.unknownOpcode op i)
    | .error _ => .error (.instructionCrossesSubroutine i)
    | .ok (instr, rest) =>
      match splitSub m n (i + instr.size) rest with
      | .error e => .error e
      | .ok is => .ok (instr :: is)

/-- The subroutines from word index `i` on, up to the end sentinel or the end of the buffer (R185). The first argument
bounds the number of subroutines; one more than the number of words is enough. -/
def decodeSubs (m : OpcodeMap) : Nat → Nat → List Word → Except CodecError (List (List Instr))
  | _, _, [] => .ok []
  | 0, i, _ :: _ => .error (.truncated i)
  | n + 1, i, len :: rest =>
    if len = haltWord then
      if rest = [] then .ok [] else .error (.trailingData (i + 1))
    else if rest.length < len.toNat then .error (.truncated (i + 1))
    else
      match splitSub m len.toNat (i + 1) (rest.take len.toNat) with
      | .error e => .error e
      | .ok is =>
        match decodeSubs m n (i + 1 + len.toNat) (rest.drop len.toNat) with
        | .error e => .error e
        | .ok ss => .ok (is :: ss)

/-- The checks on a whole program after its sections are read (R185, R188). -/
def checkProgram (c : Config) (p : Program) : Except CodecError Program :=
  if p.subs = [] then .error .noSubroutine
  else if 0xFFFF < c.programOffset.toNat + p.size then .error (.programTooLarge p.size)
  else .ok p

/-- Decode the word stream (R185). -/
def decodeStream (c : Config) (ws : List Word) : Except CodecError Program :=
  match decodeConsts c.programOffset.toNat 0 ws with
  | .error e => .error e
  | .ok (cs, i, rest) =>
    match decodeSubs c.opcodeMap rest.length i rest with
    | .error e => .error e
    | .ok ss => checkProgram c ⟨cs, ss⟩

/-- `decode(B)`: the program a byte sequence holds, or the first error (R185). -/
def decodeProgram (c : Config) (bytes : List Byte) : Except CodecError Program :=
  if bytes.take 4 ≠ magic then .error .badMagic
  else if (bytes.drop 4).length % 2 = 1 then .error (.truncated ((bytes.drop 4).length / 2))
  else decodeStream c (bytesWords (bytes.drop 4))

end Sys2Proof.Machine
end

