-- ==== Sys2Proof/Machine/Assembler.lean ====
section
/-! DEFINITION. The symbol resolver and assembler (47_assembler.md). A token is a list of characters, so that the whole
assembler is structural recursion over lists. -/

namespace Sys2Proof.Machine

/-- One token of a line, or one name (R200). -/
abbrev Token := List Char

/-- One line: its source line number and its tokens (R200). -/
structure Line where
  number : Nat
  tokens : List Token
  deriving DecidableEq, Repr

/-! ### Errors (R223) -/

/-- The assembly errors, a closed set (R223). -/
inductive AsmErrorKind where
  | unknownMnemonic
  | wrongOperandCount
  | undeclaredConstant
  | undeclaredSubroutine
  | undeclaredLabel
  | duplicateSubroutine
  | duplicateLabel
  | duplicateConstant
  | malformedNumber
  | malformedHex
  | malformedString
  | malformedName
  | instructionOutsideSubroutine
  | constantInsideSubroutine
  | labelOutsideSubroutine
  | missingMain
  | programTooLarge
  deriving DecidableEq, Repr

/-- An assembly error with its line number and the offending token (R223). -/
structure AsmError where
  kind : AsmErrorKind
  line : Nat
  token : Token
  deriving DecidableEq, Repr

/-! ### Names and literals -/

/-- The characters no name contains: brackets, braces, `&`, `:`, `=`, `;`, the quote, and white space (R202). Which
characters are white space is the model's choice: space, tab, carriage return and line feed (assumption 41). -/
def nameForbids (ch : Char) : Bool :=
  ch.isWhitespace
    || ['[', ']', Char.ofNat 0x7B, Char.ofNat 0x7D, '&', ':', '=', ';', Char.ofNat 0x22].contains ch

/-- A name: not empty, and none of the forbidden characters (R202). -/
def isName (t : Token) : Bool := !t.isEmpty && !t.any nameForbids

/-- The value of a hexadecimal digit of either case (R207). -/
def hexDigit? (ch : Char) : Option Nat :=
  if 48 ≤ ch.toNat ∧ ch.toNat ≤ 57 then some (ch.toNat - 48)
  else if 97 ≤ ch.toNat ∧ ch.toNat ≤ 102 then some (ch.toNat - 87)
  else if 65 ≤ ch.toNat ∧ ch.toNat ≤ 70 then some (ch.toNat - 55)
  else none

/-- The value of a decimal digit (R217). -/
def decDigit? (ch : Char) : Option Nat :=
  if 48 ≤ ch.toNat ∧ ch.toNat ≤ 57 then some (ch.toNat - 48) else none

/-- The value of a sequence of digits in a base, the digits before it being worth `acc`. -/
def digitsValue? (digit? : Char → Option Nat) (base : Nat) : Nat → List Char → Option Nat
  | acc, [] => some acc
  | acc, ch :: rest =>
    match digit? ch with
    | none => none
    | some d => digitsValue? digit? base (acc * base + d) rest

/-- A token that begins with `0x`, as what follows it (R207, R212): the prefix is in lower case only. -/
def afterHexPrefix? : Token → Option (List Char)
  | '0' :: 'x' :: digits => some digits
  | _ => none

/-- The word of the digits of a hex literal: one to four of them (R207). -/
def hexWord? (digits : List Char) : Option Word :=
  if digits.length = 0 ∨ 4 < digits.length then none
  else (digitsValue? hexDigit? 16 0 digits).map (BitVec.ofNat 16)

/-- The word of a decimal integer in -32768..65535, a negative one in two's complement (R217). -/
def decimalWord? : Token → Option Word
  | '-' :: digits =>
    if digits.isEmpty then none
    else
      match digitsValue? decDigit? 10 0 digits with
      | none => none
      | some n => if n ≤ 32768 then some (BitVec.ofInt 16 (-(n : Int))) else none
  | digits =>
    if digits.isEmpty then none
    else
      match digitsValue? decDigit? 10 0 digits with
      | none => none
      | some n => if n ≤ 65535 then some (BitVec.ofNat 16 n) else none

/-- A token with a `(`, the indirect-register syntax that only the preprocessor expands (R227). -/
def hasParenthesis (t : Token) : Bool := t.contains '('

/-- A hex literal or a decimal integer (R206, R207, R217); a token with a `(` is `MalformedNumber` (R227; decision
D28). -/
def literalWord (t : Token) : Except AsmErrorKind Word :=
  if hasParenthesis t then .error .malformedNumber
  else
    match afterHexPrefix? t with
    | some digits =>
      match hexWord? digits with
      | some w => .ok w
      | none => .error .malformedHex
    | none =>
      match decimalWord? t with
      | some w => .ok w
      | none => .error .malformedNumber

/-- Tokens rejoined with single spaces (R206). -/
def rejoin : List Token → List Char
  | [] => []
  | [t] => t
  | t :: ts => t ++ ' ' :: rejoin ts

/-- What stands between the first and the last character, if both are the quote and there are at least two
(R206). -/
def quoted? : List Char → Option (List Char)
  | [] => none
  | ch :: rest =>
    if ch = Char.ofNat 0x22 ∧ rest.getLast? = some (Char.ofNat 0x22) then some rest.dropLast else none

/-- The words of a string: one code point a word, then the zero terminator; nothing where a code point lies above
0xFFFF (R206). -/
def stringWords? : List Char → Option (List Word)
  | [] => some [0]
  | ch :: rest =>
    if 0xFFFF < ch.toNat then none
    else (stringWords? rest).map (BitVec.ofNat 16 ch.toNat :: ·)

/-- The words of a constant's value, or the error of its form (R206). -/
def constantWords (value : List Token) : Except AsmErrorKind (List Word) :=
  match quoted? (rejoin value) with
  | some chars =>
    match stringWords? chars with
    | some ws => .ok ws
    | none => .error .malformedString
  | none =>
    match value with
    | [t] => (literalWord t).map fun w => [w]
    | _ => .error .malformedNumber

/-- The register a register name names (10_state.md R21; R216). -/
def registerAlias? (t : Token) : Option RegId :=
  match t with
  | ['r', d] => (decDigit? d).bind fun n => if n < 10 then some (Fin.ofNat 16 n) else none
  | ['p', 'c'] => some .pc
  | ['s', 'p'] => some .sp
  | ['a', 'c'] => some .ac
  | ['e', 'x'] => some .ex
  | ['b', 'i'] => some .bi
  | ['l', 'c'] => some .lc
  | _ => none

/-! ### Line forms (R201) -/

/-- The four forms of a non-empty line (R201). -/
inductive LineForm where
  | constant (name : Token) (value : List Token)
  | subroutine (name : Token)
  | label (name : Token)
  | instruction (mnemonic : Token) (operands : List Token)
  deriving DecidableEq, Repr

/-- The name of a one-token subroutine declaration: the token ends in `:` with something before it (R201). -/
def subroutineName? (t : Token) : Option Token :=
  if t.getLast? = some ':' ∧ t.dropLast ≠ [] then some t.dropLast else none

/-- The name of a label declaration or a label reference: the token begins with `&` with something after it
(R201, R213). -/
def labelName? : Token → Option Token
  | '&' :: name => if name.isEmpty then none else some name
  | _ => none

/-- The name between an opening and a closing character, if there is one (R214, R215). -/
def between? (l r : Char) : Token → Option Token
  | [] => none
  | ch :: rest =>
    if ch = l ∧ rest.getLast? = some r ∧ rest.dropLast ≠ [] then some rest.dropLast else none

/-- The first form a line matches; a line with no tokens has none (R200, R201). -/
def classify : List Token → Option LineForm
  | [] => none
  | [t] =>
    match subroutineName? t with
    | some name => some (.subroutine name)
    | none =>
      match labelName? t with
      | some name => some (.label name)
      | none => some (.instruction t [])
  | t :: u :: rest =>
    if u = ['='] then some (.constant t rest) else some (.instruction t (u :: rest))

/-! ### The pass state (R203, R204) -/

/-- A subroutine under assembly: its name, its address, its instructions as opcodes with operand words, and its label
table (R203, R204). -/
structure AsmSub where
  name : Token
  address : Nat
  code : List (Opcode × List Word)
  labels : List (Token × Nat)
  deriving DecidableEq, Repr

/-- A pending label reference: the subroutine that holds it, the label, the address of the operand word, and the line
(R213). -/
structure LabelRef where
  sub : Token
  label : Token
  address : Nat
  line : Nat
  deriving DecidableEq, Repr

/-- The state of the single forward pass (R203). -/
structure AsmState where
  /-- The address cursor. -/
  cursor : Nat
  /-- The constant words with their addresses, in address order. -/
  consts : List (Nat × Word)
  /-- The constant table. -/
  constTable : List (Token × Nat)
  /-- The committed subroutines, in declaration order. -/
  committed : List AsmSub
  /-- The open subroutine. -/
  current : Option AsmSub
  /-- The pending label references, in the order they were recorded. -/
  refs : List LabelRef
  deriving DecidableEq, Repr

/-- The pass state before the first line: the cursor at the program base, no subroutine open (R203). -/
def AsmState.init (c : Config) : AsmState where
  cursor := c.programOffset.toNat
  consts := []
  constTable := []
  committed := []
  current := none
  refs := []

/-- Every subroutine declared so far, the open one last (R208, R215). -/
def AsmState.subs (st : AsmState) : List AsmSub := st.committed ++ st.current.toList

/-- The address a name has in a symbol table (R204). -/
def lookupName (name : Token) : List (Token × Nat) → Option Nat
  | [] => none
  | (n, a) :: rest => if n = name then some a else lookupName name rest

/-- The address of a declared subroutine (R215). -/
def AsmState.subAddress? (st : AsmState) (name : Token) : Option Nat :=
  lookupName name (st.subs.map fun s => (s.name, s.address))

/-! ### Declarations (R205, R208, R209) -/

/-- A constant declaration (R205). -/
def AsmState.declareConstant (st : AsmState) (line : Nat) (name : Token) (value : List Token) :
    Except AsmError AsmState :=
  if !isName name then .error ⟨.malformedName, line, name⟩
  else if st.current.isSome then .error ⟨.constantInsideSubroutine, line, name⟩
  else if (lookupName name st.constTable).isSome then .error ⟨.duplicateConstant, line, name⟩
  else
    match constantWords value with
    | .error kind => .error ⟨kind, line, rejoin value⟩
    | .ok ws =>
      if 0xFFFF < st.cursor + ws.length then .error ⟨.programTooLarge, line, name⟩
      else
        .ok { st with
          cursor := st.cursor + ws.length
          consts := st.consts ++ ws.mapIdx fun k w => (st.cursor + k, w)
          constTable := st.constTable ++ [(name, st.cursor)] }

/-- A subroutine declaration: the open subroutine is committed and a new one opens at the cursor (R208). -/
def AsmState.declareSubroutine (st : AsmState) (line : Nat) (name : Token) : Except AsmError AsmState :=
  if !isName name then .error ⟨.malformedName, line, name⟩
  else if (st.subAddress? name).isSome then .error ⟨.duplicateSubroutine, line, name⟩
  else .ok { st with committed := st.subs, current := some ⟨name, st.cursor, [], []⟩ }

/-- A label declaration: the name maps to the cursor (R209). -/
def AsmState.declareLabel (st : AsmState) (line : Nat) (name : Token) : Except AsmError AsmState :=
  if !isName name then .error ⟨.malformedName, line, name⟩
  else
    match st.current with
    | none => .error ⟨.labelOutsideSubroutine, line, name⟩
    | some s =>
      if (lookupName name s.labels).isSome then .error ⟨.duplicateLabel, line, name⟩
      else .ok { st with current := some { s with labels := s.labels ++ [(name, st.cursor)] } }

/-! ### Instructions (R210 to R219) -/

/-- An operand token resolved on the forward pass: its word, or a reference to a label, to be patched (R211 to
R217). -/
inductive Operand where
  | word (w : Word)
  | labelRef (name : Token)
  deriving DecidableEq, Repr

/-- The word of a name that must be declared already, or the error that it is not (R214, R215). -/
def declaredWord (kind : AsmErrorKind) : Option Nat → Except AsmErrorKind Operand
  | some a => .ok (.word (BitVec.ofNat 16 a))
  | none => .error kind

/-- An operand token, by the first form it matches: hex literal, label reference, constant reference, subroutine
reference, register alias, decimal integer (R211 to R217). The operand's kind is not checked (R218). A token with a `(`
is `MalformedNumber`, whatever form it would match (R227; decision D28). -/
def AsmState.operand (st : AsmState) (t : Token) : Except AsmErrorKind Operand :=
  if hasParenthesis t then .error .malformedNumber
  else
    match afterHexPrefix? t, labelName? t, between? '[' ']' t, between? (Char.ofNat 0x7B) (Char.ofNat 0x7D) t,
      registerAlias? t with
    | some _, _, _, _, _ => (literalWord t).map .word
    | none, some name, _, _, _ => .ok (.labelRef name)
    | none, none, some name, _, _ => declaredWord .undeclaredConstant (lookupName name st.constTable)
    | none, none, none, some name, _ => declaredWord .undeclaredSubroutine (st.subAddress? name)
    | none, none, none, none, some r => .ok (.word (BitVec.ofNat 16 r.val))
    | none, none, none, none, none => (literalWord t).map .word

/-- The operand tokens of a line from left to right (R210). -/
def AsmState.operands (st : AsmState) (line : Nat) : List Token → Except AsmError (List Operand)
  | [] => .ok []
  | t :: ts =>
    match st.operand t with
    | .error kind => .error ⟨kind, line, t⟩
    | .ok o =>
      match st.operands line ts with
      | .error e => .error e
      | .ok os => .ok (o :: os)

/-- The word of an operand before patching: a label reference is 0 (R213). -/
def Operand.firstWord : Operand → Word
  | .word w => w
  | .labelRef _ => 0

/-- The label references among the operands whose first word stands at `address` (R213). -/
def labelRefs (sub : Token) (line : Nat) : Nat → List Operand → List LabelRef
  | _, [] => []
  | address, .word _ :: os => labelRefs sub line (address + 1) os
  | address, .labelRef name :: os => ⟨sub, name, address, line⟩ :: labelRefs sub line (address + 1) os

/-- An instruction line (R210). -/
def AsmState.instruction (st : AsmState) (line : Nat) (mnemonic : Token) (ts : List Token) :
    Except AsmError AsmState :=
  match st.current with
  | none => .error ⟨.instructionOutsideSubroutine, line, mnemonic⟩
  | some s =>
    match Opcode.ofMnemonic? mnemonic with
    | none => .error ⟨.unknownMnemonic, line, mnemonic⟩
    | some op =>
      if ts.length ≠ op.count then .error ⟨.wrongOperandCount, line, mnemonic⟩
      else
        match st.operands line ts with
        | .error e => .error e
        | .ok os =>
          if 0xFFFF < st.cursor + op.size then .error ⟨.programTooLarge, line, mnemonic⟩
          else
            .ok { st with
              cursor := st.cursor + op.size
              current := some { s with code := s.code ++ [(op, os.map Operand.firstWord)] }
              refs := st.refs ++ labelRefs s.name line (st.cursor + 1) os }

/-! ### The forward pass and the patch pass -/

/-- One line of the forward pass (R200, R201, R224). -/
def AsmState.line (st : AsmState) (l : Line) : Except AsmError AsmState :=
  match classify l.tokens with
  | none => .ok st
  | some (.constant name value) => st.declareConstant l.number name value
  | some (.subroutine name) => st.declareSubroutine l.number name
  | some (.label name) => st.declareLabel l.number name
  | some (.instruction mnemonic ts) => st.instruction l.number mnemonic ts

/-- The lines of the forward pass, in order; the first error ends it (R224). -/
def AsmState.lines (st : AsmState) : List Line → Except AsmError AsmState
  | [] => .ok st
  | l :: ls =>
    match st.line l with
    | .error e => .error e
    | .ok st' => st'.lines ls

/-- Put a word into the operand slot at address `slot` of code that begins at `a` (R221). -/
def patchCode (slot : Nat) (w : Word) : Nat → List (Opcode × List Word) → List (Opcode × List Word)
  | _, [] => []
  | a, (op, ws) :: rest =>
    (op, if a < slot then ws.set (slot - a - 1) w else ws) :: patchCode slot w (a + 1 + ws.length) rest

/-- Patch one reference: look the label up in the table of the subroutine that holds it (R221). -/
def patchRef (r : LabelRef) : List AsmSub → Except AsmError (List AsmSub)
  | [] => .error ⟨.undeclaredLabel, r.line, '&' :: r.label⟩
  | s :: rest =>
    if s.name = r.sub then
      match lookupName r.label s.labels with
      | none => .error ⟨.undeclaredLabel, r.line, '&' :: r.label⟩
      | some a => .ok ({ s with code := patchCode r.address (BitVec.ofNat 16 a) s.address s.code } :: rest)
    else (patchRef r rest).map (s :: ·)

/-- Patch every reference, in the order they were recorded (R221, R224). -/
def patchRefs : List LabelRef → List AsmSub → Except AsmError (List AsmSub)
  | [], subs => .ok subs
  | r :: rs, subs =>
    match patchRef r subs with
    | .error e => .error e
    | .ok subs' => patchRefs rs subs'

/-- The name the last subroutine must have (R220). -/
def mainName : Token := ['m', 'a', 'i', 'n']

/-- The `main` check: the last-declared subroutine is named `main` (R220). -/
def mainLast (subs : List AsmSub) : Bool := (subs.getLast?.map fun s => s.name) == some mainName

/-- The instruction of an assembled row. -/
def instrOf (row : Opcode × List Word) : Instr := row.1.instr (row.2.getD 0 0) (row.2.getD 1 0)

/-- The end of the pass: the `main` check, the patch pass, and the Program, in which no name is left (R220, R221,
R225). -/
def AsmState.finish (st : AsmState) (lastLine : Nat) : Except AsmError Program :=
  if mainLast st.subs then
    match patchRefs st.refs st.subs with
    | .error e => .error e
    | .ok subs => .ok ⟨st.consts.map (·.2), subs.map fun s => s.code.map instrOf⟩
  else .error ⟨.missingMain, lastLine, (st.subs.getLast?.map fun s => s.name).getD []⟩

/-- Assemble tokenized lines into a Program, or report the first error (47_assembler.md). `MissingMain` carries the
number of the last line, and 0 where the input has no line: the model's choice (assumption 34). -/
def assemble (c : Config) (ls : List Line) : Except AsmError Program :=
  match (AsmState.init c).lines ls with
  | .error e => .error e
  | .ok st => st.finish ((ls.getLast?.map fun l => l.number).getD 0)

/-! ### The text of an instruction and of a line (R83, R200) -/

/-- A hexadecimal digit in upper case (R207). -/
def hexChar (n : Nat) : Char := if n < 10 then Char.ofNat (48 + n) else Char.ofNat (55 + n)

/-- The hex literal of a word, four digits (R207). -/
def hexToken (w : Word) : Token :=
  ['0', 'x', hexChar (w.toNat / 4096 % 16), hexChar (w.toNat / 256 % 16), hexChar (w.toNat / 16 % 16),
    hexChar (w.toNat % 16)]

/-- An instruction as assembly text: its mnemonic, then its operands in table order (30_encoding.md R83). -/
def instrTokens (i : Instr) : List Token := i.opcode.mnemonic :: i.operands.map hexToken

/-- Cut the characters of a line into tokens at white space; `cur` is the token begun, in reverse. White space is
space, tab, carriage return and line feed, the model's choice (assumption 41). -/
def tokensOf (cur : List Char) : List Char → List Token
  | [] => if cur.isEmpty then [] else [cur.reverse]
  | ch :: rest =>
    if ch.isWhitespace then
      if cur.isEmpty then tokensOf [] rest else cur.reverse :: tokensOf [] rest
    else tokensOf (ch :: cur) rest

/-- The tokens of a line of text: everything from `;` on is a comment, and white space separates tokens (R200). -/
def lexLine (text : List Char) : List Token := tokensOf [] (text.takeWhile (· ≠ ';'))

end Sys2Proof.Machine
end

