-- ==== Sys2Proof/Machine/Loader.lean ====
section
/-! DEFINITION. The loader, which makes the initial state from a program, and the argument loader that may follow it
(70_reset_and_hazards.md R260 to R266). -/

namespace Sys2Proof.Machine

/-- Why the loader refuses to start a run (R262). -/
inductive LoadError where
  /-- The parameters break 00_scope.md R9. -/
  | badParameters
  /-- The program has no subroutine, so no entry (46_codec.md R188). -/
  | noSubroutine
  /-- The program would occupy address 0xFFFF. -/
  | programTooLarge
  deriving DecidableEq, Repr

/-- Step 1: every register `REG_RESET`, every memory word never written, no fault, an empty trace (R261). -/
def State.cleared (c : Config) : State where
  regs := Vector.replicate 16 c.regReset
  mem := []
  heapOffset := 0
  fault := none
  trace := []
  cfg := c

/-- Step 3: the program's words from `PROGRAM_OFFSET` on, and the heap base just past them (R263). -/
def State.placeProgram (s : State) (p : Program) : State :=
  { s.memWriteAll s.cfg.programOffset (p.words s.cfg.opcodeMap) with
    heapOffset := s.cfg.programOffset + BitVec.ofNat 16 p.size }

/-- Step 4: `sp <- STACK_MAX + 1`, push the halt sentinel, `pc <- entry` (R264). -/
def State.setupStack (s : State) (entry : Word) : State :=
  ((s.setReg .sp (s.cfg.stackMax + 1)).push haltWord).setReg .pc entry

/-- The loader: clear the state, check the parameters and the size, place the program, set up the stack and the entry
(R260 to R265). The state it answers is ready for the first step, or for the argument loader. -/
def load (c : Config) (p : Program) : Except LoadError State :=
  if ¬ c.valid then .error .badParameters
  else if p.subs = [] then .error .noSubroutine
  else if 0xFFFF < c.programOffset.toNat + p.size then .error .programTooLarge
  else .ok (((State.cleared c).placeProgram p).setupStack (BitVec.ofNat 16 (p.entry c)))

/-- The argument loader: host writes to addresses at or above the heap base, made in order before the first step;
nothing where one write would lie below it (R266). The words and their addresses are the host's; where the count and
the lengths go is the parameter `ARG_META`. -/
def State.loadArguments (s : State) (writes : List (Word × Word)) : Option State :=
  if writes.all fun w => s.heapOffset ≤ w.1 then
    some (writes.foldl (fun s w => s.memWrite w.1 w.2) s)
  else none

/-- The addresses at which the argument loader records the arguments' count and lengths: `ARG_META`, relative to the
heap base (R266). -/
def State.argMetaAddrs (s : State) : List Word := s.cfg.argMeta.map s.heapAddr

/-- Load a binary: the codec, then the loader (00_scope.md R4; R260). -/
def loadBinary (c : Config) (bytes : List Byte) : Option State :=
  match decodeProgram c bytes with
  | .error _ => none
  | .ok p =>
    match load c p with
    | .error _ => none
    | .ok s => some s

end Sys2Proof.Machine
end

