-- ==== Sys2Proof/Machine/Run.lean ====
section
/-! DEFINITION. Runs under a fuel bound, and the host's moves between steps (40_execution_cycle.md R108, R111 to
R114). -/

namespace Sys2Proof.Machine

/-- How a run under a fuel bound ends (R111). -/
inductive RunEnd where
  /-- The run reported `Halted`: it is final, and this state is its result. -/
  | halted (s : State)
  /-- The run reported `Faulted`: the state's fault record holds the kind and the address. -/
  | faulted (s : State)
  /-- The fuel ran out: no verdict. -/
  | outOfFuel (s : State)
  /-- A step answered neither of its two reports: never the case (`step` always answers a next state). -/
  | stopped
  deriving DecidableEq, Repr

/-- A run of at most `fuel` steps, until a step reports `Halted` or `Faulted` (R111). -/
def run : Nat → State → RunEnd
  | fuel, s =>
    match s.status with
    | .halted => .halted s
    | .faulted => .faulted s
    | .running =>
      match fuel with
      | 0 => .outOfFuel s
      | fuel + 1 =>
        match step s with
        | .next t => run fuel t
        | .fault _ => .stopped
        | .refused _ => .stopped

/-- The host's moves: exactly the six of R113. None returns the fault record, which 60_exceptions.md R252 has a handler
read; that it is read off `State.fault` and no move is added is the model's choice (assumption 43). -/
inductive HostMove where
  | readReg (r : RegId)
  | writeReg (r : RegId) (v : Word)
  | readMem (a : Word)
  | writeMem (a v : Word)
  | step
  | stop
  deriving DecidableEq, Repr

/-- What a move returns to the host: a word, a status, or nothing (R113). -/
inductive HostReply where
  | word (w : Word)
  | status (st : Status)
  | nothing
  deriving DecidableEq, Repr

/-- The effect and the reply of a host move (R113). The host moves only between steps, so a move is a function of the
state a step left. -/
def hostMove (m : HostMove) (s : State) : Host.Outcome (State × HostReply) Fault Refusal :=
  match m with
  | .readReg r => .next (s, .word (s.reg r))
  | .writeReg r v => .next (s.setReg r v, .nothing)
  | .readMem a => .next (s, .word (s.memRead a))
  | .writeMem a v => .next (s.memWrite a v, .nothing)
  | .step =>
    match step s with
    | .next t => .next (t, .status t.status)
    | .fault k => .fault k
    | .refused r => .refused r
  | .stop => .next (s, .nothing)

end Sys2Proof.Machine
end

