-- ==== Sys2Proof/Safety.lean ====
section
/-! DEFINITION. The terms claims are stated in: what an instruction may write, what a frame keeps, the invariant of the
machine, and a safe run. -/

namespace Sys2Proof

open Machine

/-! ### What an instruction writes -/

/-- The registers the rule of an instruction names as written, a register operand word taken as the register it
names. -/
def Instr.writesReg (i : Instr) (r : RegId) : Prop :=
  match i with
  | .nop => False
  | .cop dst _ => regId? dst = some r
  | .cpl dst _ => regId? dst = some r
  | .str _ _ => False
  | .ldr dst _ => regId? dst = some r
  | .add _ => r = .ac
  | .sub _ => r = .ac
  | .twc reg => regId? reg = some r
  | .inc reg => regId? reg = some r
  | .dec reg => regId? reg = some r
  | .mul _ => r = .ac
  | .div _ => r = .ac ∨ r = .ex
  | .dvc _ => r = .ac ∨ r = .ex
  | .xor _ => r = .ac
  | .and _ => r = .ac
  | .orr _ => r = .ac
  | .not reg => regId? reg = some r
  | .shr reg _ => regId? reg = some r
  | .shl reg _ => regId? reg = some r
  | .psh _ => r = .sp
  | .pop dst => r = .sp ∨ regId? dst = some r
  | .ret => r = .sp ∨ r = .pc
  | .cal _ => r = .sp ∨ r = .pc
  | .cmp _ _ => r = .bi
  | .cle _ => r = .sp ∨ r = .pc
  | .cln _ => r = .sp ∨ r = .pc
  | .gto _ => r = .pc
  | .gte _ => r = .pc
  | .gtn _ => r = .pc
  | .sth _ _ => False
  | .ldh dst _ => regId? dst = some r
  | .vga => False

/-- The address an instruction stores its one word to, computed from the state it executes on as its meaning computes
it; nothing for a form that stores nothing (20_memory.md R56). -/
def Instr.storeAddr? (i : Instr) (s : State) : Option Word :=
  match i with
  | .str addrReg _ => (regId? addrReg).map s.reg
  | .sth addrReg _ => (regId? addrReg).map fun a => s.heapAddr (s.reg a)
  | .psh _ => some s.pushAddr
  | .cal _ => some s.pushAddr
  | .cle _ => if s.cond? = some true then some s.pushAddr else none
  | .cln _ => if s.cond? = some false then some s.pushAddr else none
  | .nop | .cop _ _ | .cpl _ _ | .ldr _ _ | .add _ | .sub _ | .twc _ | .inc _ | .dec _ | .mul _ | .div _ | .dvc _
  | .xor _ | .and _ | .orr _ | .not _ | .shr _ _ | .shl _ _ | .pop _ | .ret | .cmp _ _ | .gto _ | .gte _ | .gtn _
  | .ldh _ _ | .vga => none

end Sys2Proof

namespace Sys2Proof.Machine

/-! ### Frames -/

/-- From `s` to `t`, every register outside `regs` and every memory word outside `cells` is unchanged, and so is
everything outside the register file and memory. -/
structure Frame (regs : List RegId) (cells : List Word) (s t : State) : Prop where
  regs_kept : ∀ r, r ∉ regs → t.reg r = s.reg r
  cells_kept : ∀ a, a ∉ cells → t.memRead a = s.memRead a
  heapOffset_kept : t.heapOffset = s.heapOffset
  fault_kept : t.fault = s.fault
  trace_kept : t.trace = s.trace
  cfg_kept : t.cfg = s.cfg

/-- From `s` to `t`, only the fault record changed: it holds `kind` and the address `p`. -/
structure FaultedAt (kind : Fault) (p : Word) (s t : State) : Prop where
  record : t.fault = some (kind, p)
  regs_kept : ∀ r, t.reg r = s.reg r
  mem_kept : ∀ a, t.memRead a = s.memRead a
  heapOffset_kept : t.heapOffset = s.heapOffset
  trace_kept : t.trace = s.trace
  cfg_kept : t.cfg = s.cfg

/-! ### The invariant and safe runs -/

/-- The invariant: memory in canonical form, and every `Redraw` event with as many words as the text region
(20_memory.md R51; 45_heap_video.md R172). -/
structure State.Inv (s : State) : Prop where
  mem_wf : Memory.wf s.cfg.memDefault s.mem
  trace_sizes : ∀ e ∈ s.trace, e.text.length = s.cfg.stackMin.toNat

/-- The state after `k` steps is `t`. -/
def ReachesIn (k : Nat) (s t : State) : Prop := Host.Core.run Sys2Proof.core k s = .next t

/-- A run from `s` is safe: no state it reaches holds a fault (60_exceptions.md R240). -/
def SafeFrom (s : State) : Prop := ∀ k t, ReachesIn k s t → t.fault = none

end Sys2Proof.Machine
end

