-- ==== Sys2Proof/Certificates/Slice0/Obligations.lean ====
section
/-! DEFINITION. The statements for the provers. A register operand word `w` names register `r` when
`w.toNat = r.val`; `OpcodeMap.standard` is the spec's opcode map (30_encoding.md R73). In a statement about one
instruction the state is the one the step has advanced: `pc` is the next instruction's address and `lc` this one's
(40_execution_cycle.md R106). A statement about two instructions composes their execute phases, the second on the state
the first leaves, without the advance of `pc` and `lc` that a step makes in between. -/

open Sys2Proof Sys2Proof.Machine

/-! ### Data movement (41_data_movement.md) -/

/-- R120: `nop` executes and changes nothing; the step only advances; the word 0x0000 decodes as `nop`. -/
def Obligations.NopOnlyAdvances : Prop :=
  encode OpcodeMap.standard .nop = [0x0000]
  ∧ (∀ s, exec .nop s = .next s)
  ∧ (∀ s : State, s.fault = none → s.pc ≠ haltWord → s.cfg.opcodeMap = OpcodeMap.standard →
      s.memRead s.pc = 0x0000 →
      ∃ t, step s = .next t ∧ t.lc = s.pc ∧ t.pc = s.pc + 1 ∧ Frame [.lc, .pc] [] s t)

/-- R121: `cop dst src` copies a register to a register, whichever the two are. -/
def Obligations.CopCopiesRegister : Prop :=
  (∀ dst src, encode OpcodeMap.standard (.cop dst src) = [0x0001, dst, src])
  ∧ (∀ (s : State) (dst src : Word) (d r : RegId), dst.toNat = d.val → src.toNat = r.val →
      ∃ t, exec (.cop dst src) s = .next t ∧ t.reg d = s.reg r ∧ Frame [d] [] s t)
  ∧ (∀ (s : State) (dst src : Word), 16 ≤ dst.toNat ∨ 16 ≤ src.toNat →
      ∃ t, exec (.cop dst src) s = .next t ∧ FaultedAt .invalidRegister s.lc s t)

/-- R122: `cpl dst imm` loads the whole immediate word. -/
def Obligations.CplLoadsImmediate : Prop :=
  (∀ dst imm, encode OpcodeMap.standard (.cpl dst imm) = [0x0002, dst, imm])
  ∧ (∀ (s : State) (dst imm : Word) (d : RegId), dst.toNat = d.val →
      ∃ t, exec (.cpl dst imm) s = .next t ∧ t.reg d = imm ∧ Frame [d] [] s t)
  ∧ (∀ (s : State) (dst imm : Word), 16 ≤ dst.toNat →
      ∃ t, exec (.cpl dst imm) s = .next t ∧ FaultedAt .invalidRegister s.lc s t)

/-- R123: `str addrReg valReg` stores one word at the address the first register holds, any address of the 65536. -/
def Obligations.StrStoresRegister : Prop :=
  (∀ addrReg valReg, encode OpcodeMap.standard (.str addrReg valReg) = [0x0003, addrReg, valReg])
  ∧ (∀ (s : State) (addrReg valReg : Word) (a v : RegId), addrReg.toNat = a.val → valReg.toNat = v.val →
      ∃ t, exec (.str addrReg valReg) s = .next t ∧ t.memRead (s.reg a) = s.reg v ∧ Frame [] [s.reg a] s t)
  ∧ (∀ (s : State) (addrReg valReg : Word), 16 ≤ addrReg.toNat ∨ 16 ≤ valReg.toNat →
      ∃ t, exec (.str addrReg valReg) s = .next t ∧ FaultedAt .invalidRegister s.lc s t)

/-- R124: `ldr dst addrReg` loads the word at the address the second register holds; a word never written reads as
`MEM_DEFAULT`. -/
def Obligations.LdrLoadsMemory : Prop :=
  (∀ dst addrReg, encode OpcodeMap.standard (.ldr dst addrReg) = [0x0004, dst, addrReg])
  ∧ (∀ (s : State) (dst addrReg : Word) (d a : RegId), dst.toNat = d.val → addrReg.toNat = a.val →
      ∃ t, exec (.ldr dst addrReg) s = .next t ∧ t.reg d = s.memRead (s.reg a) ∧ Frame [d] [] s t)
  ∧ (∀ (s : State) (a : Word), (∀ c ∈ s.mem, c.1 ≠ a.toNat) → s.memRead a = s.cfg.memDefault)
  ∧ (∀ (s : State) (dst addrReg : Word), 16 ≤ dst.toNat ∨ 16 ≤ addrReg.toNat →
      ∃ t, exec (.ldr dst addrReg) s = .next t ∧ FaultedAt .invalidRegister s.lc s t)

/-! ### Arithmetic (42_arithmetic.md) -/

/-- R130, R131: `add` and `sub` change only the accumulator, to the sum and the difference modulo 2^16. -/
def Obligations.AddSubWrapInAccumulator : Prop :=
  (∀ src, encode OpcodeMap.standard (.add src) = [0x0005, src]
    ∧ encode OpcodeMap.standard (.sub src) = [0x0006, src])
  ∧ (∀ (s : State) (src : Word) (r : RegId), src.toNat = r.val →
      ∃ t, exec (.add src) s = .next t ∧ t.ac.toNat = (s.ac.toNat + (s.reg r).toNat) % 65536
        ∧ Frame [.ac] [] s t)
  ∧ (∀ (s : State) (src : Word) (r : RegId), src.toNat = r.val →
      ∃ t, exec (.sub src) s = .next t ∧ t.ac.toNat = (s.ac.toNat + 65536 - (s.reg r).toNat) % 65536
        ∧ Frame [.ac] [] s t)
  ∧ (∀ (s : State) (src : Word), 16 ≤ src.toNat →
      (∃ t, exec (.add src) s = .next t ∧ FaultedAt .invalidRegister s.lc s t)
      ∧ (∃ t, exec (.sub src) s = .next t ∧ FaultedAt .invalidRegister s.lc s t))

/-- R132: `twc reg` negates a register in two's complement; its execute phase applied twice, with no step's advance in
between, is the identity on the register. -/
def Obligations.TwcNegatesInPlace : Prop :=
  (∀ reg, encode OpcodeMap.standard (.twc reg) = [0x0007, reg])
  ∧ (∀ (s : State) (reg : Word) (r : RegId), reg.toNat = r.val →
      ∃ t, exec (.twc reg) s = .next t ∧ (t.reg r).toNat = (65536 - (s.reg r).toNat) % 65536 ∧ Frame [r] [] s t)
  ∧ (∀ (s t u : State) (reg : Word) (r : RegId), reg.toNat = r.val →
      exec (.twc reg) s = .next t → exec (.twc reg) t = .next u → u.reg r = s.reg r)
  ∧ (∀ (s : State) (reg : Word), 16 ≤ reg.toNat →
      ∃ t, exec (.twc reg) s = .next t ∧ FaultedAt .invalidRegister s.lc s t)

/-- R133, R134: `inc` and `dec` change only their register, by one modulo 2^16. -/
def Obligations.IncDecStepByOne : Prop :=
  (∀ reg, encode OpcodeMap.standard (.inc reg) = [0x0008, reg]
    ∧ encode OpcodeMap.standard (.dec reg) = [0x0009, reg])
  ∧ (∀ (s : State) (reg : Word) (r : RegId), reg.toNat = r.val →
      ∃ t, exec (.inc reg) s = .next t ∧ (t.reg r).toNat = ((s.reg r).toNat + 1) % 65536 ∧ Frame [r] [] s t)
  ∧ (∀ (s : State) (reg : Word) (r : RegId), reg.toNat = r.val →
      ∃ t, exec (.dec reg) s = .next t ∧ (t.reg r).toNat = ((s.reg r).toNat + 65535) % 65536 ∧ Frame [r] [] s t)
  ∧ (∀ (s : State) (reg : Word), 16 ≤ reg.toNat →
      (∃ t, exec (.inc reg) s = .next t ∧ FaultedAt .invalidRegister s.lc s t)
      ∧ (∃ t, exec (.dec reg) s = .next t ∧ FaultedAt .invalidRegister s.lc s t))

/-- `mul src` keeps the low 16 bits of the product and writes `ac` alone (42_arithmetic.md section 1; decision D12 of
the spec: `ex` is not written). -/
def Obligations.MulKeepsLowWord : Prop :=
  (∀ src, encode OpcodeMap.standard (.mul src) = [0x000A, src])
  ∧ (∀ (s : State) (src : Word) (r : RegId), src.toNat = r.val →
      ∃ t, exec (.mul src) s = .next t ∧ t.ac.toNat = s.ac.toNat * (s.reg r).toNat % 65536 ∧ Frame [.ac] [] s t)
  ∧ (∀ (s : State) (src : Word), 16 ≤ src.toNat →
      ∃ t, exec (.mul src) s = .next t ∧ FaultedAt .invalidRegister s.lc s t)

/-- `div src` is unsigned division of the accumulator, the remainder in `ex`; a zero divisor raises `DivideByZero`
(42_arithmetic.md section 1; the trap is decision D10 of the spec). -/
def Obligations.DivIsUnsignedDivision : Prop :=
  (∀ src, encode OpcodeMap.standard (.div src) = [0x000B, src])
  ∧ (∀ (s : State) (src : Word) (r : RegId), src.toNat = r.val → s.reg r ≠ 0 →
      ∃ t, exec (.div src) s = .next t ∧ t.ac.toNat = s.ac.toNat / (s.reg r).toNat
        ∧ t.ex.toNat = s.ac.toNat % (s.reg r).toNat ∧ Frame [.ac, .ex] [] s t)
  ∧ (∀ (s : State) (src : Word) (r : RegId), src.toNat = r.val → s.reg r = 0 →
      ∃ t, exec (.div src) s = .next t ∧ FaultedAt .divideByZero s.lc s t)
  ∧ (∀ (s : State) (src : Word), 16 ≤ src.toNat →
      ∃ t, exec (.div src) s = .next t ∧ FaultedAt .invalidRegister s.lc s t)

/-- `dvc src` is signed division truncating toward zero; under `magnitude` the remainder is that of the magnitudes,
under `dividend` it takes the dividend's sign (42_arithmetic.md section 1; decisions D10 and D11 of the spec). -/
def Obligations.DvcIsSignedDivision : Prop :=
  (∀ src, encode OpcodeMap.standard (.dvc src) = [0x000C, src])
  ∧ (∀ (s : State) (src : Word) (r : RegId), src.toNat = r.val → s.reg r ≠ 0 →
      ∃ t, exec (.dvc src) s = .next t
        ∧ t.ac = BitVec.ofInt 16 (s.ac.toInt.tdiv (s.reg r).toInt)
        ∧ (s.cfg.dvcRemSign = .magnitude → t.ex.toNat = s.ac.toInt.natAbs % (s.reg r).toInt.natAbs)
        ∧ (s.cfg.dvcRemSign = .dividend → t.ex = BitVec.ofInt 16 (s.ac.toInt.tmod (s.reg r).toInt))
        ∧ Frame [.ac, .ex] [] s t)
  ∧ (∀ (s : State) (src : Word) (r : RegId), src.toNat = r.val → s.reg r = 0 →
      ∃ t, exec (.dvc src) s = .next t ∧ FaultedAt .divideByZero s.lc s t)
  ∧ (∀ (s : State) (src : Word), 16 ≤ src.toNat →
      ∃ t, exec (.dvc src) s = .next t ∧ FaultedAt .invalidRegister s.lc s t)

/-- Two laws after 42_arithmetic.md section 2. The execute phase of `sub r` on the state that of `add r` leaves restores
the accumulator, for every register but `ac`: the section states the law for every register, and leaving out `ac`, which
`add ac` doubles, is the model's reading (assumption 39). No step's advance stands between the two, so for `pc` and
`lc`, which a second step rewrites first, this is no law of consecutive steps (assumption 39). And `dvc` on two operands
with bit 15 clear is `div`. -/
def Obligations.ArithmeticLawsHold : Prop :=
  (∀ (s t u : State) (src : Word) (r : RegId), src.toNat = r.val → r ≠ .ac →
      exec (.add src) s = .next t → exec (.sub src) t = .next u → u.ac = s.ac ∧ Frame [] [] s u)
  ∧ (∀ (s : State) (src : Word) (r : RegId), src.toNat = r.val → s.ac.toNat < 32768 → (s.reg r).toNat < 32768 →
      exec (.dvc src) s = exec (.div src) s)

/-! ### Logic and shifts (43_logic_shift.md) -/

/-- R140 to R142: `xor`, `and` and `orr` change only the accumulator, bit by bit. -/
def Obligations.LogicActsBitwise : Prop :=
  (∀ src, encode OpcodeMap.standard (.xor src) = [0x000D, src]
    ∧ encode OpcodeMap.standard (.and src) = [0x000E, src]
    ∧ encode OpcodeMap.standard (.orr src) = [0x000F, src])
  ∧ (∀ (s : State) (src : Word) (r : RegId), src.toNat = r.val →
      ∃ t, exec (.xor src) s = .next t ∧ Frame [.ac] [] s t
        ∧ ∀ n, t.ac.getLsbD n = (s.ac.getLsbD n ^^ (s.reg r).getLsbD n))
  ∧ (∀ (s : State) (src : Word) (r : RegId), src.toNat = r.val →
      ∃ t, exec (.and src) s = .next t ∧ Frame [.ac] [] s t
        ∧ ∀ n, t.ac.getLsbD n = (s.ac.getLsbD n && (s.reg r).getLsbD n))
  ∧ (∀ (s : State) (src : Word) (r : RegId), src.toNat = r.val →
      ∃ t, exec (.orr src) s = .next t ∧ Frame [.ac] [] s t
        ∧ ∀ n, t.ac.getLsbD n = (s.ac.getLsbD n || (s.reg r).getLsbD n))
  ∧ (∀ (s : State) (src : Word), 16 ≤ src.toNat →
      (∃ t, exec (.xor src) s = .next t ∧ FaultedAt .invalidRegister s.lc s t)
      ∧ (∃ t, exec (.and src) s = .next t ∧ FaultedAt .invalidRegister s.lc s t)
      ∧ (∃ t, exec (.orr src) s = .next t ∧ FaultedAt .invalidRegister s.lc s t))

/-- R143: `not reg` complements a register; its execute phase followed by that of `inc` on the same register, with no
step's advance in between, does what `twc` does. -/
def Obligations.NotComplementsInPlace : Prop :=
  (∀ reg, encode OpcodeMap.standard (.not reg) = [0x0010, reg])
  ∧ (∀ (s : State) (reg : Word) (r : RegId), reg.toNat = r.val →
      ∃ t, exec (.not reg) s = .next t ∧ Frame [r] [] s t
        ∧ ∀ n, n < 16 → (t.reg r).getLsbD n = !(s.reg r).getLsbD n)
  ∧ (∀ (s t : State) (reg : Word) (r : RegId), reg.toNat = r.val →
      exec (.not reg) s = .next t → exec (.inc reg) t = exec (.twc reg) s)
  ∧ (∀ (s : State) (reg : Word), 16 ≤ reg.toNat →
      ∃ t, exec (.not reg) s = .next t ∧ FaultedAt .invalidRegister s.lc s t)

/-- `shr` and `shl` shift logically by an unsigned amount taken from a register and never masked
(43_logic_shift.md; decision D13 of the spec: an amount of 16 or more gives 0). -/
def Obligations.ShiftsAreLogicalAndUnmasked : Prop :=
  (∀ reg amountReg, encode OpcodeMap.standard (.shr reg amountReg) = [0x0011, reg, amountReg]
    ∧ encode OpcodeMap.standard (.shl reg amountReg) = [0x0012, reg, amountReg])
  ∧ (∀ (s : State) (reg amountReg : Word) (r k : RegId), reg.toNat = r.val → amountReg.toNat = k.val →
      ∃ t, exec (.shr reg amountReg) s = .next t
        ∧ (t.reg r).toNat = (s.reg r).toNat / 2 ^ (s.reg k).toNat ∧ Frame [r] [] s t)
  ∧ (∀ (s : State) (reg amountReg : Word) (r k : RegId), reg.toNat = r.val → amountReg.toNat = k.val →
      ∃ t, exec (.shl reg amountReg) s = .next t
        ∧ (t.reg r).toNat = (s.reg r).toNat * 2 ^ (s.reg k).toNat % 65536 ∧ Frame [r] [] s t)
  ∧ (∀ (s : State) (reg amountReg : Word), 16 ≤ reg.toNat ∨ 16 ≤ amountReg.toNat →
      (∃ t, exec (.shr reg amountReg) s = .next t ∧ FaultedAt .invalidRegister s.lc s t)
      ∧ (∃ t, exec (.shl reg amountReg) s = .next t ∧ FaultedAt .invalidRegister s.lc s t))

/-! ### Stack and control transfer (44_stack_control.md) -/

/-- `psh valReg` decrements `sp` and stores the value the register had before (44_stack_control.md section 2; decisions
D14 and D17 of the spec: `psh sp` pushes the old `sp`, and nothing checks `sp`). -/
def Obligations.PshPushesRegister : Prop :=
  (∀ valReg, encode OpcodeMap.standard (.psh valReg) = [0x0013, valReg])
  ∧ (∀ (s : State) (valReg : Word) (r : RegId), valReg.toNat = r.val →
      ∃ t, exec (.psh valReg) s = .next t ∧ t.sp = s.sp - 1 ∧ t.memRead (s.sp - 1) = s.reg r
        ∧ Frame [.sp] [s.sp - 1] s t)
  ∧ (∀ (s : State) (valReg : Word), 16 ≤ valReg.toNat →
      ∃ t, exec (.psh valReg) s = .next t ∧ FaultedAt .invalidRegister s.lc s t)

/-- `pop dst` loads the word at `sp` and increments `sp`, the destination written last (44_stack_control.md section 2;
decision D14 of the spec: `pop sp` leaves the popped word in `sp`). -/
def Obligations.PopPopsRegister : Prop :=
  (∀ dst, encode OpcodeMap.standard (.pop dst) = [0x0014, dst])
  ∧ (∀ (s : State) (dst : Word) (d : RegId), dst.toNat = d.val →
      ∃ t, exec (.pop dst) s = .next t ∧ t.reg d = s.memRead s.sp ∧ (d ≠ .sp → t.sp = s.sp + 1)
        ∧ Frame [.sp, d] [] s t)
  ∧ (∀ (s : State) (dst : Word), 16 ≤ dst.toNat →
      ∃ t, exec (.pop dst) s = .next t ∧ FaultedAt .invalidRegister s.lc s t)

/-- R154: `ret` pops into `pc`; when the popped word is 0xFFFF the engine is halted. -/
def Obligations.RetPopsProgramCounter : Prop :=
  encode OpcodeMap.standard .ret = [0x0015]
  ∧ (∀ s : State, ∃ t, exec .ret s = .next t ∧ t.pc = s.memRead s.sp ∧ t.sp = s.sp + 1 ∧ Frame [.sp, .pc] [] s t)
  ∧ (∀ s t : State, s.fault = none → s.memRead s.sp = 0xFFFF → exec .ret s = .next t → t.status = .halted)

/-- R155: `cal addr` pushes `pc`, which holds the address of the next instruction, and jumps to the immediate. -/
def Obligations.CalPushesAndJumps : Prop :=
  (∀ addr, encode OpcodeMap.standard (.cal addr) = [0x0016, addr])
  ∧ (∀ (s : State) (addr : Word),
      ∃ t, exec (.cal addr) s = .next t ∧ t.pc = addr ∧ t.sp = s.sp - 1 ∧ t.memRead (s.sp - 1) = s.pc
        ∧ Frame [.sp, .pc] [s.sp - 1] s t)

/-- R156: `cmp r1 r2` writes `bi` alone, with `BI_TRUE` if the two registers are equal and `BI_FALSE` if not. -/
def Obligations.CmpSetsMarker : Prop :=
  (∀ r1 r2, encode OpcodeMap.standard (.cmp r1 r2) = [0x0017, r1, r2])
  ∧ (∀ (s : State) (r1 r2 : Word) (a b : RegId), r1.toNat = a.val → r2.toNat = b.val →
      ∃ t, exec (.cmp r1 r2) s = .next t
        ∧ t.bi = (if s.reg a = s.reg b then s.cfg.biTrue else s.cfg.biFalse) ∧ Frame [.bi] [] s t)
  ∧ (∀ (s : State) (r1 r2 : Word), 16 ≤ r1.toNat ∨ 16 ≤ r2.toNat →
      ∃ t, exec (.cmp r1 r2) s = .next t ∧ FaultedAt .invalidRegister s.lc s t)

/-- `cle` calls when `bi` is `BI_TRUE` and `cln` when it is `BI_FALSE`; on the other marker each changes nothing, and on
neither each raises `BiIndeterminate` (44_stack_control.md section 2; the fault is decision D9 of the spec). The
markers differ (00_scope.md R9). -/
def Obligations.ConditionalCallsFollowMarker : Prop :=
  (∀ addr, encode OpcodeMap.standard (.cle addr) = [0x0018, addr]
    ∧ encode OpcodeMap.standard (.cln addr) = [0x0019, addr])
  ∧ (∀ (s : State) (addr : Word), s.bi = s.cfg.biTrue →
      ∃ t, exec (.cle addr) s = .next t ∧ t.pc = addr ∧ t.sp = s.sp - 1 ∧ t.memRead (s.sp - 1) = s.pc
        ∧ Frame [.sp, .pc] [s.sp - 1] s t)
  ∧ (∀ (s : State) (addr : Word), s.cfg.biTrue ≠ s.cfg.biFalse → s.bi = s.cfg.biFalse →
      ∃ t, exec (.cln addr) s = .next t ∧ t.pc = addr ∧ t.sp = s.sp - 1 ∧ t.memRead (s.sp - 1) = s.pc
        ∧ Frame [.sp, .pc] [s.sp - 1] s t)
  ∧ (∀ (s : State) (addr : Word), s.cfg.biTrue ≠ s.cfg.biFalse → s.bi = s.cfg.biFalse →
      exec (.cle addr) s = .next s)
  ∧ (∀ (s : State) (addr : Word), s.bi = s.cfg.biTrue → exec (.cln addr) s = .next s)
  ∧ (∀ (s : State) (addr : Word), s.bi ≠ s.cfg.biTrue → s.bi ≠ s.cfg.biFalse →
      (∃ t, exec (.cle addr) s = .next t ∧ FaultedAt .biIndeterminate s.lc s t)
      ∧ (∃ t, exec (.cln addr) s = .next t ∧ FaultedAt .biIndeterminate s.lc s t))

/-- R159: `gto reg` jumps to the address a register holds and changes nothing else. -/
def Obligations.GtoJumpsThroughRegister : Prop :=
  (∀ reg, encode OpcodeMap.standard (.gto reg) = [0x001A, reg])
  ∧ (∀ (s : State) (reg : Word) (r : RegId), reg.toNat = r.val →
      ∃ t, exec (.gto reg) s = .next t ∧ t.pc = s.reg r ∧ Frame [.pc] [] s t)
  ∧ (∀ (s : State) (reg : Word), 16 ≤ reg.toNat →
      ∃ t, exec (.gto reg) s = .next t ∧ FaultedAt .invalidRegister s.lc s t)

/-- `gte` jumps when `bi` is `BI_TRUE` and `gtn` when it is `BI_FALSE`; on the other marker each changes nothing; an
invalid register is reported first, and then `BiIndeterminate` on neither marker (44_stack_control.md section 2;
decisions D9 and D26 of the spec). The markers differ (00_scope.md R9). -/
def Obligations.ConditionalJumpsFollowMarker : Prop :=
  (∀ reg, encode OpcodeMap.standard (.gte reg) = [0x001B, reg]
    ∧ encode OpcodeMap.standard (.gtn reg) = [0x001C, reg])
  ∧ (∀ (s : State) (reg : Word) (r : RegId), reg.toNat = r.val → s.bi = s.cfg.biTrue →
      (∃ t, exec (.gte reg) s = .next t ∧ t.pc = s.reg r ∧ Frame [.pc] [] s t)
      ∧ exec (.gtn reg) s = .next s)
  ∧ (∀ (s : State) (reg : Word) (r : RegId), reg.toNat = r.val → s.cfg.biTrue ≠ s.cfg.biFalse →
      s.bi = s.cfg.biFalse →
      (∃ t, exec (.gtn reg) s = .next t ∧ t.pc = s.reg r ∧ Frame [.pc] [] s t)
      ∧ exec (.gte reg) s = .next s)
  ∧ (∀ (s : State) (reg : Word), reg.toNat < 16 → s.bi ≠ s.cfg.biTrue → s.bi ≠ s.cfg.biFalse →
      (∃ t, exec (.gte reg) s = .next t ∧ FaultedAt .biIndeterminate s.lc s t)
      ∧ (∃ t, exec (.gtn reg) s = .next t ∧ FaultedAt .biIndeterminate s.lc s t))
  ∧ (∀ (s : State) (reg : Word), 16 ≤ reg.toNat →
      (∃ t, exec (.gte reg) s = .next t ∧ FaultedAt .invalidRegister s.lc s t)
      ∧ (∃ t, exec (.gtn reg) s = .next t ∧ FaultedAt .invalidRegister s.lc s t))

/-- The laws of 44_stack_control.md section 3 for execute phases, with no step's advance in between: a `psh` followed by a
`pop` into the same register restores `sp` and the register, `sp` itself included; a `cal` followed by a `ret` returns to
the instruction after the `cal`. -/
def Obligations.StackDisciplineHolds : Prop :=
  (∀ (s t u : State) (w : Word), w.toNat < 16 → exec (.psh w) s = .next t → exec (.pop w) t = .next u →
      Frame [] [s.sp - 1] s u)
  ∧ (∀ (s t u : State) (addr : Word), exec (.cal addr) s = .next t → exec .ret t = .next u →
      u.pc = s.pc ∧ Frame [] [s.sp - 1] s u)

/-- A compare followed by a conditional jump, as execute phases with no step's advance in between: with distinct markers,
`gte` after `cmp` jumps exactly when the two registers were equal, and `gtn` exactly when they were not; neither faults
(44_stack_control.md R151, R156, R160, R161). -/
def Obligations.BranchFollowsCompare : Prop :=
  ∀ (s t : State) (r1 r2 reg : Word) (a b j : RegId), s.cfg.biTrue ≠ s.cfg.biFalse →
    r1.toNat = a.val → r2.toNat = b.val → reg.toNat = j.val → exec (.cmp r1 r2) s = .next t →
    (∃ u, exec (.gte reg) t = .next u ∧ u.pc = (if s.reg a = s.reg b then t.reg j else s.pc)
      ∧ u.fault = s.fault)
    ∧ (∃ u, exec (.gtn reg) t = .next u ∧ u.pc = (if s.reg a = s.reg b then s.pc else t.reg j)
      ∧ u.fault = s.fault)

/-! ### Heap-relative access and video (45_heap_video.md) -/

/-- `sth addrReg valReg` stores at the offset plus the heap base, modulo 2^16 (45_heap_video.md; decision D17 of the
spec: no address is refused). -/
def Obligations.SthStoresAtHeapOffset : Prop :=
  (∀ addrReg valReg, encode OpcodeMap.standard (.sth addrReg valReg) = [0x001D, addrReg, valReg])
  ∧ (∀ (s : State) (addrReg valReg : Word) (a v : RegId), addrReg.toNat = a.val → valReg.toNat = v.val →
      ∃ t, exec (.sth addrReg valReg) s = .next t ∧ t.memRead (s.reg a + s.heapOffset) = s.reg v
        ∧ Frame [] [s.reg a + s.heapOffset] s t)
  ∧ (∀ (s : State) (addrReg valReg : Word), 16 ≤ addrReg.toNat ∨ 16 ≤ valReg.toNat →
      ∃ t, exec (.sth addrReg valReg) s = .next t ∧ FaultedAt .invalidRegister s.lc s t)

/-- R171: `ldh dst addrReg` loads from the offset plus the heap base, modulo 2^16. -/
def Obligations.LdhLoadsAtHeapOffset : Prop :=
  (∀ dst addrReg, encode OpcodeMap.standard (.ldh dst addrReg) = [0x001E, dst, addrReg])
  ∧ (∀ (s : State) (dst addrReg : Word) (d a : RegId), dst.toNat = d.val → addrReg.toNat = a.val →
      ∃ t, exec (.ldh dst addrReg) s = .next t ∧ t.reg d = s.memRead (s.reg a + s.heapOffset) ∧ Frame [d] [] s t)
  ∧ (∀ (s : State) (dst addrReg : Word), 16 ≤ dst.toNat ∨ 16 ≤ addrReg.toNat →
      ∃ t, exec (.ldh dst addrReg) s = .next t ∧ FaultedAt .invalidRegister s.lc s t)

/-- `vga` appends one event, a copy of the text region word by word, and changes no register and no memory word
(45_heap_video.md; the event is decision D18 of the spec). -/
def Obligations.VgaAppendsTextRegion : Prop :=
  encode OpcodeMap.standard .vga = [0x001F]
  ∧ (∀ s : State, ∃ t e, exec .vga s = .next t ∧ t.trace = s.trace ++ [e]
      ∧ e.text.length = s.cfg.stackMin.toNat
      ∧ (∀ k : Nat, k < s.cfg.stackMin.toNat → e.text[k]? = some (s.memRead (BitVec.ofNat 16 k)))
      ∧ (∀ r, t.reg r = s.reg r) ∧ (∀ a, t.memRead a = s.memRead a)
      ∧ t.heapOffset = s.heapOffset ∧ t.fault = s.fault ∧ t.cfg = s.cfg)

/-- A load sees the store before it: the execute phase of `ldr` after that of `str` through the same register, and of
`ldh` after that of `sth`, with no step's advance in between, give the value stored (20_memory.md R60). -/
def Obligations.LoadSeesEarlierStore : Prop :=
  (∀ (s t u : State) (addrReg valReg dst : Word) (v d : RegId), addrReg.toNat < 16 → valReg.toNat = v.val →
      dst.toNat = d.val → exec (.str addrReg valReg) s = .next t → exec (.ldr dst addrReg) t = .next u →
      u.reg d = s.reg v)
  ∧ (∀ (s t u : State) (addrReg valReg dst : Word) (v d : RegId), addrReg.toNat < 16 → valReg.toNat = v.val →
      dst.toNat = d.val → exec (.sth addrReg valReg) s = .next t → exec (.ldh dst addrReg) t = .next u →
      u.reg d = s.reg v)

/-! ### The step (40_execution_cycle.md) -/

/-- When the words at `pc` decode to an instruction, a step advances past it (`lc` takes its address, `pc` the address
of the next one, nothing else changes) and executes it (R104, R105, R109). -/
def Obligations.StepRunsDecodedInstruction : Prop :=
  ∀ (s : State) (i : Instr) (rest : List Word), s.fault = none → s.pc ≠ haltWord →
    decode s.cfg.opcodeMap (s.wordsFrom s.pc 3) = .ok (i, rest) →
    step s = exec i (s.advance i.size)
    ∧ (s.advance i.size).lc = s.pc ∧ (s.advance i.size).pc = s.pc + BitVec.ofNat 16 i.size
    ∧ Frame [.lc, .pc] [] s (s.advance i.size)

/-- When memory holds an instruction's words at `pc`, none of them at 0xFFFF, a step executes that instruction on the
advanced state, whatever stands after it (R102 to R105). -/
def Obligations.StepRunsInstructionInMemory : Prop :=
  ∀ (s : State) (i : Instr), s.fault = none → s.cfg.opcodeMap.valid → s.pc.toNat + i.size ≤ 0xFFFF →
    (∀ k : Nat, k < i.size → (encode s.cfg.opcodeMap i)[k]? = some (s.memRead (s.pc + BitVec.ofNat 16 k))) →
    step s = exec i (s.advance i.size)

/-- A step on a faulted engine changes nothing and leaves it faulted; on a halted one it changes nothing and leaves it
halted (40_execution_cycle.md section 1; decisions D23 and D25 of the spec). -/
def Obligations.StoppedEngineChangesNothing : Prop :=
  (∀ s : State, s.fault ≠ none → step s = .next s ∧ s.status = .faulted)
  ∧ (∀ s : State, s.fault = none → s.pc = 0xFFFF → step s = .next s ∧ s.status = .halted)

/-- An opcode word with no row in the Instruction Table raises `UnknownOpcode` at `pc` and changes no register and no
memory word (R241; the state after it is decision D25 of the spec). -/
def Obligations.UnknownOpcodeFaults : Prop :=
  (∀ s : State, s.fault = none → s.pc ≠ haltWord → (∀ o : Opcode, o.number s.cfg.opcodeMap ≠ s.memRead s.pc) →
      ∃ t, step s = .next t ∧ FaultedAt .unknownOpcode s.pc s t)
  ∧ (∀ s : State, s.fault = none → s.pc ≠ haltWord → s.cfg.opcodeMap = OpcodeMap.standard →
      0x0020 ≤ (s.memRead s.pc).toNat → ∃ t, step s = .next t ∧ FaultedAt .unknownOpcode s.pc s t)

/-- An instruction with an operand word at 0xFFFF raises `OperandAtHaltAddress` and changes no register and no memory
word (60_exceptions.md section 2; decision D16 of the spec). -/
def Obligations.OperandAtHaltAddressFaults : Prop :=
  ∀ (s : State) (o : Opcode), s.fault = none → s.pc ≠ haltWord → s.cfg.opcodeMap.valid →
    s.memRead s.pc = o.number s.cfg.opcodeMap → 0xFFFF ≤ s.pc.toNat + o.count →
    ∃ t, step s = .next t ∧ FaultedAt .operandAtHaltAddress s.pc s t

/-- A fault of the execute phase is precise: the record holds the instruction's address, `lc` and `pc` are advanced,
and nothing else of the instruction is applied (60_exceptions.md section 2; decision D25 of the spec). -/
def Obligations.ExecuteFaultsArePrecise : Prop :=
  ∀ (s t : State) (i : Instr) (kind : Fault) (p : Word), s.fault = none → s.pc ≠ haltWord → s.fetch = .ok i →
    step s = .next t → t.fault = some (kind, p) → p = s.pc ∧ FaultedAt kind s.pc (s.advance i.size) t

/-- Which instructions fault in the execute phase, and when: an invalid register comes first; then a zero divisor, in
`div` and `dvc` alone; then an indeterminate `bi`, in `cle`, `cln`, `gte` and `gtn` alone; nothing else faults
(60_exceptions.md section 2; decisions D9, D10, D15 and D26 of the spec). -/
def Obligations.ExecuteFaultsExactlyForTheirCauses : Prop :=
  ∀ (i : Instr) (s : State), s.fault = none → ∃ t, exec i s = .next t ∧
    (t.fault = some (.invalidRegister, s.lc) ↔ ¬ i.wellFormed)
    ∧ (t.fault = some (.divideByZero, s.lc) ↔
        ∃ src r, (i = .div src ∨ i = .dvc src) ∧ regId? src = some r ∧ s.reg r = 0)
    ∧ (t.fault = some (.biIndeterminate, s.lc) ↔
        i.wellFormed ∧ s.bi ≠ s.cfg.biTrue ∧ s.bi ≠ s.cfg.biFalse
          ∧ ∃ w, i = .cle w ∨ i = .cln w ∨ i = .gte w ∨ i = .gtn w)
    ∧ (t.fault = none ∨ t.fault = some (.invalidRegister, s.lc) ∨ t.fault = some (.divideByZero, s.lc)
        ∨ t.fault = some (.biIndeterminate, s.lc))

/-! ### Frames and whole-machine rules -/

/-- An instruction writes no register its rule does not name (10_state.md R22, R30; the rules of 41 to 45). -/
def Obligations.ExecWritesOnlyNamedRegisters : Prop :=
  ∀ (i : Instr) (s t : State) (r : RegId), exec i s = .next t → ¬ i.writesReg r → t.reg r = s.reg r

/-- An instruction changes no memory word but the one it stores to, whose address is computed from the state it
executes on (20_memory.md R56). -/
def Obligations.ExecStoresOnlyAtItsAddress : Prop :=
  ∀ (i : Instr) (s t : State) (a : Word), exec i s = .next t → i.storeAddr? s ≠ some a →
    t.memRead a = s.memRead a

/-- No step changes the heap base or the configuration, and a step that meets a fault record keeps it (10_state.md R32,
R34; 60_exceptions.md R240). -/
def Obligations.HeapBaseAndRecordStay : Prop :=
  ∀ s t : State, step s = .next t →
    t.heapOffset = s.heapOffset ∧ t.cfg = s.cfg ∧ (s.fault ≠ none → t.fault = s.fault)

/-- The trace only grows, and only by `vga`, by one copy of the text region (10_state.md R33; 45_heap_video.md R172). -/
def Obligations.OnlyVgaExtendsTrace : Prop :=
  ∀ s t : State, step s = .next t →
    t.trace = s.trace
    ∨ (s.status = .running ∧ s.fetch = .ok .vga ∧ t.trace = s.trace ++ [⟨s.textRegion⟩])

/-- After a step that executes an instruction, `lc` holds that instruction's address, unless the instruction writes
`lc` itself (10_state.md R29). -/
def Obligations.LcHoldsLastInstructionAddress : Prop :=
  ∀ (s t : State) (i : Instr), s.status = .running → s.fetch = .ok i → ¬ i.writesReg .lc → step s = .next t →
    t.lc = s.pc

/-- After a step that executes an instruction which writes no `pc`, `pc` is the address just past it, and that sum does
not wrap (40_execution_cycle.md R104, R107). -/
def Obligations.PcAdvancesPastInstruction : Prop :=
  ∀ (s t : State) (i : Instr), s.status = .running → s.fetch = .ok i → ¬ i.writesReg .pc → step s = .next t →
    t.pc.toNat = s.pc.toNat + i.size

/-! ### Invariants, reset and load (10_state.md R37; 70_reset_and_hazards.md) -/

/-- Every step keeps the invariant: memory stays canonical, and every event has as many words as the text region. -/
def Obligations.StepKeepsInvariant : Prop :=
  ∀ s t : State, s.Inv → step s = .next t → t.Inv

/-- The state after reset meets the invariant. -/
def Obligations.ResetMeetsInvariant : Prop := State.reset.Inv

/-- What reset leaves: `sp` at `STACK_MAX` and the halt sentinel there (10_state.md R37; decision D7), no fault record
and an empty trace, `REG_RESET` in every register but `sp` and `pc`, and every other word never written. The numbers
are those of the standard configuration, which are choices: `STACK_MAX` is 0x0FFF by decision D6 (assumption 6),
`REG_RESET` is 0 by D5 (assumption 5) and a word never written reads as 0 by D4 (assumption 4). `pc` and the heap base
are the model's choice (assumption 11). -/
def Obligations.ResetHoldsLoadValues : Prop :=
  State.reset.sp = 0x0FFF ∧ State.reset.memRead 0x0FFF = 0xFFFF
  ∧ (∀ r : RegId, r ≠ .sp → r ≠ .pc → State.reset.reg r = 0)
  ∧ (∀ a : Word, a ≠ 0x0FFF → State.reset.memRead a = 0)
  ∧ State.reset.fault = none ∧ State.reset.trace = []
  ∧ State.reset.pc = 0x1000 ∧ State.reset.heapOffset = 0x1000

/-- What the loader leaves (10_state.md R37; 70_reset_and_hazards.md section 1; decisions D4, D5, D7, D22 of the spec):
for valid parameters and a valid program it answers a state with the program's words in place, the halt sentinel on the
stack, the entry in `pc` and every other word never written, which meets the invariant. -/
def Obligations.LoadPlacesProgram : Prop :=
  ∀ (c : Config) (p : Program), c.valid → p.valid c → ∃ s, load c p = .ok s
    ∧ s.sp = c.stackMax ∧ s.pc = BitVec.ofNat 16 (p.entry c)
    ∧ (∀ r : RegId, r ≠ .sp → r ≠ .pc → s.reg r = c.regReset)
    ∧ s.memRead c.stackMax = 0xFFFF
    ∧ (∀ k : Nat, k < p.size →
        (p.words c.opcodeMap)[k]? = some (s.memRead (c.programOffset + BitVec.ofNat 16 k)))
    ∧ (∀ a : Word, a ≠ c.stackMax → (a < c.programOffset ∨ c.programOffset.toNat + p.size ≤ a.toNat) →
        s.memRead a = c.memDefault)
    ∧ s.heapOffset.toNat = c.programOffset.toNat + p.size
    ∧ s.fault = none ∧ s.trace = [] ∧ s.cfg = c ∧ s.Inv

/-- The loader refuses bad parameters, and a program that would occupy 0xFFFF (70_reset_and_hazards.md section 1;
decision D22 of the spec). Two points are the model's choice: bad parameters are those that break 00_scope.md R9 or
number two opcodes alike (assumption 9), and they are reported first, whatever the program (assumption 31). -/
def Obligations.LoadRefusesBadPrograms : Prop :=
  (∀ (c : Config) (p : Program), ¬ c.valid → load c p = .error .badParameters)
  ∧ (∀ (c : Config) (p : Program), c.valid → p.subs ≠ [] → 0xFFFF < c.programOffset.toNat + p.size →
      load c p = .error .programTooLarge)

/-- A program whose entry subroutine begins with `ret` halts after one step from its loaded state (40_execution_cycle.md
R112; 70_reset_and_hazards.md R264). -/
def Obligations.ReturnFromMainHalts : Prop :=
  ∀ (c : Config) (consts : List Word) (subs : List (List Instr)) (is : List Instr) (s : State),
    load c ⟨consts, subs ++ [.ret :: is]⟩ = .ok s →
    ∃ t, step s = .next t ∧ t.status = .halted ∧ t.sp = c.stackMax + 1

/-- The argument loader writes no register and no word below the heap base (70_reset_and_hazards.md R266). -/
def Obligations.ArgumentsStayInHeap : Prop :=
  ∀ (s t : State) (writes : List (Word × Word)), s.loadArguments writes = some t →
    (∀ r, t.reg r = s.reg r) ∧ (∀ a : Word, a < s.heapOffset → t.memRead a = s.memRead a)
    ∧ t.heapOffset = s.heapOffset ∧ t.fault = s.fault ∧ t.trace = s.trace ∧ t.cfg = s.cfg

/-! ### Encodings (30_encoding.md, 46_codec.md, 47_assembler.md) -/

/-- Words written out from the table of 30_encoding.md R73 decode to the instructions they stand for, and the word past
the table decodes to none. -/
def Obligations.TableWordsDecode : Prop :=
  decode OpcodeMap.standard [0x0002, 0x000C, 0x0003] = .ok (.cpl 12 3, [])
  ∧ decode OpcodeMap.standard [0x0005, 0x0001] = .ok (.add 1, [])
  ∧ decode OpcodeMap.standard [0x0011, 0x0000, 0x0001, 0x0015] = .ok (.shr 0 1, [0x0015])
  ∧ decode OpcodeMap.standard [0x0016, 0x2000] = .ok (.cal 0x2000, [])
  ∧ decode OpcodeMap.standard [0x001E, 0x0008, 0x0007] = .ok (.ldh 8 7, [])
  ∧ decode OpcodeMap.standard [0x0020] = .error (.unknownOpcode 0x0020)

/-- Decoding an encoded instruction gives it back, with every operand at every value, and leaves what follows; for every
opcode map that numbers no two opcodes alike. -/
def Obligations.DecodeOfEncodeIsIdentity : Prop :=
  ∀ (m : OpcodeMap) (i : Instr) (rest : List Word), m.valid → decode m (encode m i ++ rest) = .ok (i, rest)

/-- Whatever decodes is the encoding of what it decodes to. -/
def Obligations.EncodeOfDecodeIsIdentity : Prop :=
  ∀ (m : OpcodeMap) (ws rest : List Word) (i : Instr), decode m ws = .ok (i, rest) → ws = encode m i ++ rest

/-- The codec's round trip: decoding a valid program's binary gives the program back (46_codec.md R190). -/
def Obligations.CodecRoundTrip : Prop :=
  ∀ (c : Config) (p : Program), c.valid → p.valid c → decodeProgram c (encodeProgram c p) = .ok p

/-- The codec's converse: a binary that decodes is that of the program it decodes to, but for a final sentinel it may
lack, and that program is valid (46_codec.md R188, R190). -/
def Obligations.DecodedBinaryIsCanonical : Prop :=
  ∀ (c : Config) (bytes : List Byte) (p : Program), decodeProgram c bytes = .ok p →
    p.valid c ∧ (encodeProgram c p = bytes ∨ encodeProgram c p = bytes ++ [0xFF, 0xFF])

/-- Whatever the assembler accepts is a valid program (46_codec.md R188; 47_assembler.md R222, R225). -/
def Obligations.AssembledProgramIsValid : Prop :=
  ∀ (c : Config) (ls : List Line) (p : Program), assemble c ls = .ok p → p.valid c

/-- The assembler accepts nothing whose last-declared subroutine is not named `main` (47_assembler.md R220). -/
def Obligations.AssemblerRequiresMainLast : Prop :=
  ∀ (c : Config) (ls : List Line) (p : Program), assemble c ls = .ok p →
    ((ls.filterMap fun l => classify l.tokens).filterMap fun f =>
      match f with
      | .subroutine name => some name
      | .constant _ _ | .label _ | .instruction _ _ => none).getLast? = some ['m', 'a', 'i', 'n']

/-- The assembler agrees with the encoder: an instruction written as its mnemonic and its operands, in a `main` of its
own, assembles to that instruction (30_encoding.md R76, R83). -/
def Obligations.AssembledTextIsTheInstruction : Prop :=
  ∀ (c : Config) (i : Instr), c.programOffset.toNat + i.size ≤ 0xFFFF →
    assemble c [⟨1, [['m', 'a', 'i', 'n', ':']]⟩, ⟨2, instrTokens i⟩] = .ok ⟨[], [[i]]⟩

/-! ### The loader's refusal of a program with no entry -/

/-- The loader refuses a program with no subroutine (46_codec.md section 4; decision D22 of the spec). That this is
reported before the size, and under that name, is the model's choice (assumption 31). -/
def Obligations.LoadRefusesProgramWithoutEntry : Prop :=
  ∀ (c : Config) (consts : List Word), c.valid → load c ⟨consts, []⟩ = .error .noSubroutine
end

