-- ==== Sys2Proof/Laws/Assembler.lean ====
section
/-! SUPPORT. What the assembler reads back from a word written as a hex literal, and from a token with a `(`. -/

namespace Sys2Proof.Machine

theorem hexDigit?_hexChar : ∀ n < 16, hexDigit? (hexChar n) = some n := by decide

theorem hexChar_ne_parenthesis : ∀ n < 16, hexChar n ≠ '(' := by decide

/-- No hex literal the model writes has a `(` in it. -/
theorem hasParenthesis_hexToken (w : Word) : hasParenthesis (hexToken w) = false := by
  have h (n : Nat) : '(' ≠ hexChar (n % 16) := (hexChar_ne_parenthesis _ (by omega)).symm
  simp [hasParenthesis, hexToken, h]

/-- A hex literal reads back as the word it was written from (47_assembler.md R207). -/
theorem literalWord_hexToken (w : Word) : literalWord (hexToken w) = .ok w := by
  have := w.isLt
  rw [literalWord, hasParenthesis_hexToken]
  simp only [Bool.false_eq_true, if_false, hexToken, afterHexPrefix?, hexWord?, List.length_cons, List.length_nil,
    digitsValue?]
  rw [hexDigit?_hexChar _ (by omega)]; simp only
  rw [hexDigit?_hexChar _ (by omega)]; simp only
  rw [hexDigit?_hexChar _ (by omega)]; simp only
  rw [hexDigit?_hexChar _ (by omega)]
  simp
  apply BitVec.eq_of_toNat_eq
  simp
  omega

/-- As an operand, a hex literal is its word (47_assembler.md R212). -/
theorem operand_hexToken (st : AsmState) (w : Word) : st.operand (hexToken w) = .ok (.word w) := by
  have : afterHexPrefix? (hexToken w) = some _ := rfl
  simp only [AsmState.operand, hasParenthesis_hexToken, Bool.false_eq_true, if_false, this, literalWord_hexToken]
  rfl

/-- An operand with a `(` is `MalformedNumber`, whatever form it would match (47_assembler.md R227). -/
theorem operand_of_parenthesis (st : AsmState) {t : Token} (h : hasParenthesis t = true) :
    st.operand t = .error .malformedNumber := by
  simp [AsmState.operand, h]

end Sys2Proof.Machine
end

