-- ==== Sys2Proof/Laws/Decode.lean ====
section
/-! SUPPORT. The laws of the Instruction Table: every opcode is in it once, its number and its mnemonic find it again,
and an instruction's operands are as many as its row says (30_encoding.md R73 to R76). -/

namespace Sys2Proof

theorem Opcode.mem_all (o : Opcode) : o ∈ Opcode.all := by cases o <;> decide

theorem Opcode.index_injective {o o' : Opcode} (h : o.index = o'.index) : o = o' := by
  have key : ∀ a ∈ Opcode.all, ∀ b ∈ Opcode.all, a.index = b.index → a = b := by decide
  exact key o o.mem_all o' o'.mem_all h

theorem Opcode.number_injective {m : OpcodeMap} (hm : m.valid) {o o' : Opcode} (h : o.number m = o'.number m) :
    o = o' := by
  refine Opcode.index_injective (Fin.ext ?_)
  refine (List.Nodup.getElem_inj_iff hm (i := o.index.val) (j := o'.index.val) (hi := by simp) (hj := by simp)).1 ?_
  simpa [Opcode.number] using h

/-- What a lookup by number finds has that number. -/
theorem Opcode.number_of_ofNumber? {m : OpcodeMap} {w : Word} {o : Opcode} (h : Opcode.ofNumber? m w = some o) :
    o.number m = w := by
  simpa using List.find?_some h

/-- A lookup finds nothing exactly where no opcode has the number. -/
theorem Opcode.ofNumber?_eq_none {m : OpcodeMap} {w : Word} :
    Opcode.ofNumber? m w = none ↔ ∀ o : Opcode, o.number m ≠ w := by
  simp only [Opcode.ofNumber?, List.find?_eq_none, beq_iff_eq]
  exact ⟨fun h o => h o o.mem_all, fun h o _ => h o⟩

/-- Under a map that numbers no two opcodes alike, an opcode's number finds it. -/
theorem Opcode.ofNumber?_number {m : OpcodeMap} (hm : m.valid) (o : Opcode) :
    Opcode.ofNumber? m (o.number m) = some o := by
  cases h : Opcode.ofNumber? m (o.number m) with
  | none => exact absurd rfl (Opcode.ofNumber?_eq_none.1 h o)
  | some o' => rw [Opcode.number_injective hm (Opcode.number_of_ofNumber? h)]

theorem Opcode.ofMnemonic?_mnemonic (o : Opcode) : Opcode.ofMnemonic? o.mnemonic = some o := by
  cases o <;> decide

theorem OpcodeMap.standard_valid : OpcodeMap.standard.valid := by decide

theorem OpcodeMap.number_standard (o : Opcode) : o.number OpcodeMap.standard = BitVec.ofNat 16 o.index.val := by
  cases o <;> decide

theorem Opcode.count_le_two (o : Opcode) : o.count ≤ 2 := by cases o <;> decide

theorem Opcode.opcode_instr (o : Opcode) (a b : Word) : (o.instr a b).opcode = o := by cases o <;> rfl

theorem Instr.length_operands (i : Instr) : i.operands.length = i.opcode.count := by cases i <;> rfl

/-- An instruction is what its opcode makes of its operand words. -/
theorem Instr.instr_operands (i : Instr) (rest : List Word) :
    i.opcode.instr ((i.operands ++ rest).getD 0 0) ((i.operands ++ rest).getD 1 0) = i := by
  cases i <;> rfl

/-- An instruction of so many operand words is made of them. -/
theorem Opcode.operands_instr (o : Opcode) (ws : List Word) (h : o.count ≤ ws.length) :
    (o.instr (ws.getD 0 0) (ws.getD 1 0)).operands = ws.take o.count := by
  match ws with
  | [] => cases o <;> first | rfl | (exact absurd h (by decide))
  | [a] => cases o <;> first | rfl | (exact absurd h (by simp [Opcode.count, Opcode.kinds]))
  | a :: b :: ws => cases o <;> rfl

/-- Well-formedness as a statement about each register operand. -/
theorem Instr.wellFormed_iff (i : Instr) : i.wellFormed ↔ ∀ w ∈ i.regOperands, w.toNat < 16 := by
  simp [Instr.wellFormed]

/-- The two tables of operand kinds agree: the register operands are the operands of kind `R`. -/
theorem Instr.regOperands_eq (i : Instr) :
    i.regOperands = ((i.opcode.kinds.zip i.operands).filter fun c => c.1 = .register).map (·.2) := by
  cases i <;> rfl

theorem Config.openMarkers_ne : Config.openBiTrue ≠ Config.openBiFalse := by
  unfold Config.openBiFalse
  split
  · bv_omega
  · rename_i h
    exact Ne.symm h

/-- The standard configuration meets the check of 00_scope.md R9. -/
theorem Config.standard_valid : Config.standard.valid :=
  ⟨by decide, by decide, by decide, Config.openMarkers_ne, OpcodeMap.standard_valid⟩

end Sys2Proof
end

