-- ==== Sys2Proof/Laws/Memory.lean ====
section
/-! SUPPORT. The laws of memory: what a read gives after a write, that a write keeps the canonical form, and that the
canonical form is unique (20_memory.md R51, R52, R60). -/

namespace Sys2Proof.Machine

namespace Memory

theorem read_insert (d : Word) (m : Memory) (a b : Nat) (v : Word) :
    read d (insert a v m) b = if b = a then v else read d m b := by
  induction m with
  | nil => simp only [insert, read, eq_comm (a := a)]
  | cons c m ih =>
    obtain ⟨k, w⟩ := c
    simp only [insert]
    split
    · simp only [read, eq_comm (a := a)]
    · split
      · subst_vars
        by_cases h : k = b
        · simp [read, h]
        · simp [read, h, Ne.symm h]
      · by_cases h : k = b
        · have hb : b ≠ a := by omega
          simp [read, h, hb]
        · simp [read, h, ih]

theorem erase_cons (a : Nat) (c : Nat × Word) (m : Memory) :
    erase a (c :: m) = if c.1 = a then erase a m else c :: erase a m := by
  unfold erase
  by_cases h : c.1 = a <;> simp [h]

theorem read_erase (d : Word) (m : Memory) (a b : Nat) :
    read d (erase a m) b = if b = a then d else read d m b := by
  induction m with
  | nil => simp [erase, read]
  | cons c m ih =>
    obtain ⟨k, w⟩ := c
    rw [erase_cons]
    by_cases h : k = a
    · subst h
      by_cases hb : b = k
      · rw [if_pos rfl, ih, if_pos hb, if_pos hb]
      · simp [read, ih, hb, Ne.symm hb]
    · by_cases hb : k = b
      · subst hb
        simp [read, h]
      · simp [read, h, hb, ih]

/-- A read after a write: the word written, at its address; what was there before, at every other one. -/
@[simp] theorem read_write (d : Word) (m : Memory) (a b : Nat) (v : Word) :
    read d (write d m a v) b = if b = a then v else read d m b := by
  unfold write
  split
  · rename_i hv
    rw [read_erase, hv]
  · exact read_insert d m a b v

theorem mem_insert {a : Nat} {v : Word} {m : Memory} {c : Nat × Word} (h : c ∈ insert a v m) :
    c = (a, v) ∨ c ∈ m := by
  induction m with
  | nil => simpa [insert] using h
  | cons e m ih =>
    obtain ⟨k, w⟩ := e
    simp only [insert] at h
    split at h
    · simpa using h
    · split at h
      · rcases List.mem_cons.1 h with h | h <;> simp [h]
      · rcases List.mem_cons.1 h with h | h
        · simp [h]
        · rcases ih h with h | h <;> simp [h]

theorem insert_rising {a : Nat} {v : Word} {m : Memory} (h : m.Pairwise fun c c' => c.1 < c'.1) :
    (insert a v m).Pairwise fun c c' => c.1 < c'.1 := by
  induction m with
  | nil => simp [insert]
  | cons e m ih =>
    obtain ⟨k, w⟩ := e
    rw [List.pairwise_cons] at h
    simp only [insert]
    split
    · rename_i hlt
      refine List.pairwise_cons.2 ⟨fun c hc => ?_, List.pairwise_cons.2 h⟩
      rcases List.mem_cons.1 hc with rfl | hc
      · exact hlt
      · exact lt_trans hlt (h.1 c hc)
    · split
      · rename_i heq
        exact List.pairwise_cons.2 ⟨fun c hc => heq ▸ h.1 c hc, h.2⟩
      · refine List.pairwise_cons.2 ⟨fun c hc => ?_, ih h.2⟩
        rcases mem_insert hc with rfl | hc
        · simp only; omega
        · exact h.1 c hc

/-- Every write keeps the canonical form. -/
theorem wf_write {d : Word} {m : Memory} (h : wf d m) {a : Nat} (ha : a < 65536) (v : Word) :
    wf d (write d m a v) := by
  unfold write
  split
  · exact ⟨h.1.filter _, fun c hc => h.2 c (List.mem_filter.1 hc).1⟩
  · rename_i hv
    refine ⟨insert_rising h.1, fun c hc => ?_⟩
    rcases mem_insert hc with rfl | hc
    · exact ⟨ha, hv⟩
    · exact h.2 c hc

theorem wf_nil (d : Word) : wf d [] := ⟨List.Pairwise.nil, by simp⟩

theorem read_of_forall_ne {d : Word} {m : Memory} {a : Nat} (h : ∀ c ∈ m, c.1 ≠ a) : read d m a = d := by
  induction m with
  | nil => rfl
  | cons e m ih =>
    obtain ⟨k, w⟩ := e
    have hk : k ≠ a := h (k, w) (by simp)
    simp only [read, if_neg hk]
    exact ih fun c hc => h c (by simp [hc])

theorem read_of_mem {d : Word} {m : Memory} (h : m.Pairwise fun c c' => c.1 < c'.1) {c : Nat × Word} (hc : c ∈ m) :
    read d m c.1 = c.2 := by
  induction m with
  | nil => simp at hc
  | cons e m ih =>
    obtain ⟨k, w⟩ := e
    rw [List.pairwise_cons] at h
    rcases List.mem_cons.1 hc with rfl | hc
    · simp [read]
    · have : k ≠ c.1 := by have := h.1 c hc; simp only at this; omega
      simp only [read, if_neg this]
      exact ih h.2 hc

/-- A cell of a canonical memory is exactly an address that reads as its word, other than `d`. -/
theorem mem_iff_read {d : Word} {m : Memory} (h : wf d m) (a : Nat) (v : Word) :
    (a, v) ∈ m ↔ read d m a = v ∧ v ≠ d := by
  constructor
  · exact fun hc => ⟨read_of_mem h.1 hc, (h.2 _ hc).2⟩
  · rintro ⟨hr, hv⟩
    by_contra hc
    refine hv (hr ▸ read_of_forall_ne fun c hm ha => hc ?_)
    obtain ⟨k, w⟩ := c
    obtain rfl : k = a := ha
    have := read_of_mem (d := d) h.1 hm
    simp only at this
    rwa [← hr, this]

/-- Equal reads make equal data: the canonical form is unique. -/
theorem eq_of_read_eq {d : Word} {m m' : Memory} (h : wf d m) (h' : wf d m')
    (hr : ∀ a, read d m a = read d m' a) : m = m' := by
  have hp : m.Perm m' := by
    refine (List.perm_ext_iff_of_nodup ?_ ?_).2 fun c => ?_
    · exact h.1.imp fun hlt heq => by rw [heq] at hlt; omega
    · exact h'.1.imp fun hlt heq => by rw [heq] at hlt; omega
    · obtain ⟨a, v⟩ := c
      rw [mem_iff_read h, mem_iff_read h', hr]
  refine hp.eq_of_pairwise (fun c c' _ _ hlt hlt' => ?_) h.1 h'.1
  omega

end Memory

end Sys2Proof.Machine
end

