-- ==== Sys2Proof/Laws/State.lean ====
section
/-! SUPPORT. One lemma per field per update of the state, so that no proof unfolds a record update (10_state.md R34). -/

namespace Sys2Proof

/-! ### The special registers are six (10_state.md R21) -/

@[simp] theorem RegId.pc_ne_sp : RegId.pc ≠ RegId.sp := by decide
@[simp] theorem RegId.pc_ne_ac : RegId.pc ≠ RegId.ac := by decide
@[simp] theorem RegId.pc_ne_ex : RegId.pc ≠ RegId.ex := by decide
@[simp] theorem RegId.pc_ne_bi : RegId.pc ≠ RegId.bi := by decide
@[simp] theorem RegId.pc_ne_lc : RegId.pc ≠ RegId.lc := by decide
@[simp] theorem RegId.sp_ne_pc : RegId.sp ≠ RegId.pc := by decide
@[simp] theorem RegId.sp_ne_ac : RegId.sp ≠ RegId.ac := by decide
@[simp] theorem RegId.sp_ne_ex : RegId.sp ≠ RegId.ex := by decide
@[simp] theorem RegId.sp_ne_bi : RegId.sp ≠ RegId.bi := by decide
@[simp] theorem RegId.sp_ne_lc : RegId.sp ≠ RegId.lc := by decide
@[simp] theorem RegId.ac_ne_pc : RegId.ac ≠ RegId.pc := by decide
@[simp] theorem RegId.ac_ne_sp : RegId.ac ≠ RegId.sp := by decide
@[simp] theorem RegId.ac_ne_ex : RegId.ac ≠ RegId.ex := by decide
@[simp] theorem RegId.ac_ne_bi : RegId.ac ≠ RegId.bi := by decide
@[simp] theorem RegId.ac_ne_lc : RegId.ac ≠ RegId.lc := by decide
@[simp] theorem RegId.ex_ne_pc : RegId.ex ≠ RegId.pc := by decide
@[simp] theorem RegId.ex_ne_sp : RegId.ex ≠ RegId.sp := by decide
@[simp] theorem RegId.ex_ne_ac : RegId.ex ≠ RegId.ac := by decide
@[simp] theorem RegId.ex_ne_bi : RegId.ex ≠ RegId.bi := by decide
@[simp] theorem RegId.ex_ne_lc : RegId.ex ≠ RegId.lc := by decide
@[simp] theorem RegId.bi_ne_pc : RegId.bi ≠ RegId.pc := by decide
@[simp] theorem RegId.bi_ne_sp : RegId.bi ≠ RegId.sp := by decide
@[simp] theorem RegId.bi_ne_ac : RegId.bi ≠ RegId.ac := by decide
@[simp] theorem RegId.bi_ne_ex : RegId.bi ≠ RegId.ex := by decide
@[simp] theorem RegId.bi_ne_lc : RegId.bi ≠ RegId.lc := by decide
@[simp] theorem RegId.lc_ne_pc : RegId.lc ≠ RegId.pc := by decide
@[simp] theorem RegId.lc_ne_sp : RegId.lc ≠ RegId.sp := by decide
@[simp] theorem RegId.lc_ne_ac : RegId.lc ≠ RegId.ac := by decide
@[simp] theorem RegId.lc_ne_ex : RegId.lc ≠ RegId.ex := by decide
@[simp] theorem RegId.lc_ne_bi : RegId.lc ≠ RegId.bi := by decide

end Sys2Proof

namespace Sys2Proof.Machine

namespace State

/-! ### Register writes -/

@[simp] theorem reg_setReg (s : State) (r q : RegId) (v : Word) :
    (s.setReg r v).reg q = if q = r then v else s.reg q := by
  simp [setReg, reg, Vector.getElem_set, Fin.ext_iff, eq_comm]

theorem reg_setReg_self (s : State) (r : RegId) (v : Word) : (s.setReg r v).reg r = v := by simp

theorem reg_setReg_of_ne (s : State) {r q : RegId} (h : q ≠ r) (v : Word) : (s.setReg r v).reg q = s.reg q := by
  simp [h]

@[simp] theorem setReg_mem (s : State) (r : RegId) (v : Word) : (s.setReg r v).mem = s.mem := rfl
@[simp] theorem setReg_heapOffset (s : State) (r : RegId) (v : Word) : (s.setReg r v).heapOffset = s.heapOffset := rfl
@[simp] theorem setReg_fault (s : State) (r : RegId) (v : Word) : (s.setReg r v).fault = s.fault := rfl
@[simp] theorem setReg_trace (s : State) (r : RegId) (v : Word) : (s.setReg r v).trace = s.trace := rfl
@[simp] theorem setReg_cfg (s : State) (r : RegId) (v : Word) : (s.setReg r v).cfg = s.cfg := rfl
@[simp] theorem memRead_setReg (s : State) (r : RegId) (v a : Word) : (s.setReg r v).memRead a = s.memRead a := rfl

/-! ### Memory writes -/

@[simp] theorem memRead_memWrite (s : State) (a b v : Word) :
    (s.memWrite a v).memRead b = if b = a then v else s.memRead b := by
  simp [memWrite, memRead, BitVec.toNat_inj]

@[simp] theorem memWrite_regs (s : State) (a v : Word) : (s.memWrite a v).regs = s.regs := rfl
@[simp] theorem reg_memWrite (s : State) (a v : Word) (r : RegId) : (s.memWrite a v).reg r = s.reg r := rfl
@[simp] theorem memWrite_heapOffset (s : State) (a v : Word) : (s.memWrite a v).heapOffset = s.heapOffset := rfl
@[simp] theorem memWrite_fault (s : State) (a v : Word) : (s.memWrite a v).fault = s.fault := rfl
@[simp] theorem memWrite_trace (s : State) (a v : Word) : (s.memWrite a v).trace = s.trace := rfl
@[simp] theorem memWrite_cfg (s : State) (a v : Word) : (s.memWrite a v).cfg = s.cfg := rfl

/-- A memory write keeps the canonical form. -/
theorem memWrite_wf {s : State} (h : Memory.wf s.cfg.memDefault s.mem) (a v : Word) :
    Memory.wf (s.memWrite a v).cfg.memDefault (s.memWrite a v).mem :=
  Memory.wf_write h a.isLt v

/-! ### The fault record -/

@[simp] theorem raise_fault (s : State) (k : Fault) (p : Word) : (s.raise k p).fault = some (k, p) := rfl
@[simp] theorem reg_raise (s : State) (k : Fault) (p : Word) (r : RegId) : (s.raise k p).reg r = s.reg r := rfl
@[simp] theorem raise_mem (s : State) (k : Fault) (p : Word) : (s.raise k p).mem = s.mem := rfl
@[simp] theorem memRead_raise (s : State) (k : Fault) (p a : Word) : (s.raise k p).memRead a = s.memRead a := rfl
@[simp] theorem raise_heapOffset (s : State) (k : Fault) (p : Word) : (s.raise k p).heapOffset = s.heapOffset := rfl
@[simp] theorem raise_trace (s : State) (k : Fault) (p : Word) : (s.raise k p).trace = s.trace := rfl
@[simp] theorem raise_cfg (s : State) (k : Fault) (p : Word) : (s.raise k p).cfg = s.cfg := rfl

/-! ### The trace -/

@[simp] theorem emitRedraw_trace (s : State) : s.emitRedraw.trace = s.trace ++ [⟨s.textRegion⟩] := rfl
@[simp] theorem reg_emitRedraw (s : State) (r : RegId) : s.emitRedraw.reg r = s.reg r := rfl
@[simp] theorem emitRedraw_mem (s : State) : s.emitRedraw.mem = s.mem := rfl
@[simp] theorem memRead_emitRedraw (s : State) (a : Word) : s.emitRedraw.memRead a = s.memRead a := rfl
@[simp] theorem emitRedraw_heapOffset (s : State) : s.emitRedraw.heapOffset = s.heapOffset := rfl
@[simp] theorem emitRedraw_fault (s : State) : s.emitRedraw.fault = s.fault := rfl
@[simp] theorem emitRedraw_cfg (s : State) : s.emitRedraw.cfg = s.cfg := rfl

@[simp] theorem length_textRegion (s : State) : s.textRegion.length = s.cfg.stackMin.toNat := by simp [textRegion]

end State

end Sys2Proof.Machine
end

