-- ==== Sys2Proof/Laws/Ops.lean ====
section
/-! SUPPORT. One lemma for each shared operation that says what it does, and what an execute phase can answer at
all. -/

namespace Sys2Proof.Machine

/-! ### Register operands -/

theorem regId?_eq_some {w : Word} {r : RegId} : regId? w = some r ↔ w.toNat = r.val := by
  unfold regId?
  split
  · rename_i h
    simp [Fin.ext_iff]
  · rename_i h
    have := r.isLt
    simp only [reduceCtorEq, false_iff]
    omega

theorem regId?_eq_none {w : Word} : regId? w = none ↔ 16 ≤ w.toNat := by
  unfold regId?
  split <;> simp_all

/-- A register operand that names a register lets the instruction go on with it. -/
theorem withReg_of_names {w : Word} {r : RegId} (h : w.toNat = r.val) (s : State) (go : RegId → Result) :
    withReg w s go = go r := by
  simp [withReg, regId?_eq_some.2 h]

/-- A register operand above 15 raises `InvalidRegister` and does nothing else. -/
theorem withReg_of_ge {w : Word} (h : 16 ≤ w.toNat) (s : State) (go : RegId → Result) :
    withReg w s go = .next (s.raiseHere .invalidRegister) := by
  simp [withReg, regId?_eq_none.2 h]

/-- What a register operand's check can lead to. -/
theorem withReg_cases (w : Word) (s : State) (go : RegId → Result) :
    (∃ r : RegId, w.toNat = r.val ∧ withReg w s go = go r)
    ∨ (16 ≤ w.toNat ∧ withReg w s go = .next (s.raiseHere .invalidRegister)) := by
  by_cases h : w.toNat < 16
  · exact .inl ⟨⟨w.toNat, h⟩, rfl, withReg_of_names rfl s go⟩
  · exact .inr ⟨by omega, withReg_of_ge (by omega) s go⟩

/-! ### The stack -/

theorem push_spec (s : State) (v : Word) :
    (s.push v).sp = s.sp - 1
    ∧ (∀ r, r ≠ .sp → (s.push v).reg r = s.reg r)
    ∧ (∀ a, (s.push v).memRead a = if a = s.sp - 1 then v else s.memRead a)
    ∧ (s.push v).heapOffset = s.heapOffset ∧ (s.push v).fault = s.fault ∧ (s.push v).trace = s.trace
    ∧ (s.push v).cfg = s.cfg := by
  refine ⟨by simp [State.push, State.pushAddr], fun r h => by simp [State.push, h], fun a => ?_, rfl, rfl, rfl, rfl⟩
  simp [State.push, State.pushAddr]

theorem call_spec (s : State) (target : Word) :
    (s.call target).pc = target ∧ (s.call target).sp = s.sp - 1
    ∧ (∀ r, r ≠ .sp → r ≠ .pc → (s.call target).reg r = s.reg r)
    ∧ (∀ a, (s.call target).memRead a = if a = s.sp - 1 then s.pc else s.memRead a)
    ∧ (s.call target).heapOffset = s.heapOffset ∧ (s.call target).fault = s.fault
    ∧ (s.call target).trace = s.trace ∧ (s.call target).cfg = s.cfg := by
  refine ⟨by simp [State.call, State.jump], ?_, fun r h h' => ?_, fun a => ?_, rfl, rfl, rfl, rfl⟩
  · simp [State.call, State.jump, State.push, State.pushAddr]
  · simp [State.call, State.jump, State.push, h, h']
  · simp [State.call, State.jump, State.push, State.pushAddr]

theorem advance_spec (s : State) (n : Nat) :
    (s.advance n).lc = s.pc ∧ (s.advance n).pc = s.pc + BitVec.ofNat 16 n
    ∧ (∀ r, r ≠ .lc → r ≠ .pc → (s.advance n).reg r = s.reg r)
    ∧ (s.advance n).mem = s.mem ∧ (s.advance n).heapOffset = s.heapOffset ∧ (s.advance n).fault = s.fault
    ∧ (s.advance n).trace = s.trace ∧ (s.advance n).cfg = s.cfg := by
  refine ⟨by simp [State.advance], by simp [State.advance], fun r h h' => ?_, rfl, rfl, rfl, rfl, rfl⟩
  simp [State.advance, h, h']

/-! ### The condition -/

/-- What a conditional action can lead to. -/
theorem ifCond_cases (s : State) (want : Bool) (act : State → State) :
    (s.cond? = some want ∧ s.ifCond want act = act s)
    ∨ (s.cond? = some (!want) ∧ s.ifCond want act = s)
    ∨ (s.cond? = none ∧ s.ifCond want act = s.raiseHere .biIndeterminate) := by
  unfold State.ifCond
  cases s.cond? with
  | none => simp
  | some b => cases b <;> cases want <;> simp

theorem cond?_true {s : State} (h : s.bi = s.cfg.biTrue) : s.cond? = some true := by simp [State.cond?, h]

theorem cond?_false {s : State} (hne : s.cfg.biTrue ≠ s.cfg.biFalse) (h : s.bi = s.cfg.biFalse) :
    s.cond? = some false := by
  simp [State.cond?, h, Ne.symm hne]

theorem cond?_none {s : State} (h : s.bi ≠ s.cfg.biTrue) (h' : s.bi ≠ s.cfg.biFalse) : s.cond? = none := by
  simp [State.cond?, h, h']

/-! ### What an execute phase answers -/

/-- What a step or an execute phase may do to memory and the trace: keep both, write one word, or append one copy of
the text region. -/
inductive Effect (s t : State) : Prop where
  | kept (mem : t.mem = s.mem) (trace : t.trace = s.trace)
  | wrote (a v : Word) (mem : t.mem = (s.memWrite a v).mem) (trace : t.trace = s.trace)
  | drew (mem : t.mem = s.mem) (trace : t.trace = s.trace ++ [⟨s.textRegion⟩])

/-- A next state of one of the allowed effects, with the heap base and the configuration kept. -/
structure Plain (s t : State) : Prop where
  effect : Effect s t
  heapOffset_kept : t.heapOffset = s.heapOffset
  cfg_kept : t.cfg = s.cfg

theorem plain_setReg (s : State) (r : RegId) (v : Word) : Plain s (s.setReg r v) := ⟨.kept rfl rfl, rfl, rfl⟩
theorem plain_memWrite (s : State) (a v : Word) : Plain s (s.memWrite a v) := ⟨.wrote a v rfl rfl, rfl, rfl⟩
theorem plain_raiseHere (s : State) (k : Fault) : Plain s (s.raiseHere k) := ⟨.kept rfl rfl, rfl, rfl⟩
theorem plain_refl (s : State) : Plain s s := ⟨.kept rfl rfl, rfl, rfl⟩
theorem plain_push (s : State) (v : Word) : Plain s (s.push v) := ⟨.wrote s.pushAddr v rfl rfl, rfl, rfl⟩
theorem plain_call (s : State) (a : Word) : Plain s (s.call a) := ⟨.wrote s.pushAddr s.pc rfl rfl, rfl, rfl⟩
theorem plain_emitRedraw (s : State) : Plain s s.emitRedraw := ⟨.drew rfl rfl, rfl, rfl⟩

theorem plain_ifCond {s : State} {act : State → State} (want : Bool) (h : Plain s (act s)) :
    Plain s (s.ifCond want act) := by
  obtain ⟨-, h'⟩ | ⟨-, h'⟩ | ⟨-, h'⟩ := ifCond_cases s want act <;> rw [h']
  · exact h
  · exact plain_refl s
  · exact plain_raiseHere s _

/-- An answer is a next state with an allowed effect. -/
def Answers (s : State) (o : Result) : Prop := ∃ t, o = .next t ∧ Plain s t

theorem answers_next {s t : State} (h : Plain s t) : Answers s (.next t) := ⟨t, rfl, h⟩

theorem answers_withReg {s : State} {go : RegId → Result} (w : Word) (h : ∀ r, Answers s (go r)) :
    Answers s (withReg w s go) := by
  obtain ⟨r, -, hr⟩ | ⟨-, hr⟩ := withReg_cases w s go <;> rw [hr]
  · exact h r
  · exact answers_next (plain_raiseHere s _)

theorem answers_accumulate (f : Word → Word → Word) (w : Word) (s : State) : Answers s (accumulate f w s) :=
  answers_withReg w fun _ => answers_next (plain_setReg ..)

theorem answers_inPlace (f : Word → Word) (w : Word) (s : State) : Answers s (inPlace f w s) :=
  answers_withReg w fun _ => answers_next (plain_setReg ..)

theorem answers_shiftInPlace (f : Word → Word → Word) (w k : Word) (s : State) : Answers s (shiftInPlace f w k s) :=
  answers_withReg w fun _ => answers_withReg k fun _ => answers_next (plain_setReg ..)

theorem answers_divideBy (qr : Word → Word → Word × Word) (w : Word) (s : State) : Answers s (divideBy qr w s) := by
  refine answers_withReg w fun r => answers_next ?_
  split
  · exact plain_raiseHere s _
  · exact ⟨.kept rfl rfl, rfl, rfl⟩

/-- Every instruction answers a next state, and its effect on memory and the trace is one of three. -/
theorem exec_answers (i : Instr) (s : State) : Answers s (exec i s) := by
  cases i with
  | nop => exact answers_next (plain_refl s)
  | cop dst src => exact answers_withReg dst fun _ => answers_withReg src fun _ => answers_next (plain_setReg ..)
  | cpl dst imm => exact answers_withReg dst fun _ => answers_next (plain_setReg ..)
  | str a v => exact answers_withReg a fun _ => answers_withReg v fun _ => answers_next (plain_memWrite ..)
  | ldr dst a => exact answers_withReg dst fun _ => answers_withReg a fun _ => answers_next (plain_setReg ..)
  | add src => exact answers_accumulate (fun c v => c + v) src s
  | sub src => exact answers_accumulate (fun c v => c + twc v) src s
  | twc reg => exact answers_inPlace twc reg s
  | inc reg => exact answers_inPlace (fun v => v + 1) reg s
  | dec reg => exact answers_inPlace (fun v => v + twc 1) reg s
  | mul src => exact answers_accumulate (fun c v => BitVec.ofNat 16 (c.toNat * v.toNat)) src s
  | div src => exact answers_divideBy divUnsigned src s
  | dvc src => exact answers_divideBy (divSigned s.cfg.dvcRemSign) src s
  | xor src => exact answers_accumulate (fun c v => c ^^^ v) src s
  | and src => exact answers_accumulate (fun c v => c &&& v) src s
  | orr src => exact answers_accumulate (fun c v => c ||| v) src s
  | not reg => exact answers_inPlace (fun v => ~~~v) reg s
  | shr reg k => exact answers_shiftInPlace shiftRight reg k s
  | shl reg k => exact answers_shiftInPlace shiftLeft reg k s
  | psh v => exact answers_withReg v fun _ => answers_next (plain_push ..)
  | pop dst => exact answers_withReg dst fun _ => answers_next ⟨.kept rfl rfl, rfl, rfl⟩
  | ret => exact answers_next ⟨.kept rfl rfl, rfl, rfl⟩
  | cal addr => exact answers_next (plain_call ..)
  | cmp a b => exact answers_withReg a fun _ => answers_withReg b fun _ => answers_next (plain_setReg ..)
  | cle addr => exact answers_next (plain_ifCond true (plain_call s addr))
  | cln addr => exact answers_next (plain_ifCond false (plain_call s addr))
  | gto reg => exact answers_withReg reg fun _ => answers_next (plain_setReg ..)
  | gte reg => exact answers_withReg reg fun _ => answers_next (plain_ifCond true (plain_setReg ..))
  | gtn reg => exact answers_withReg reg fun _ => answers_next (plain_ifCond false (plain_setReg ..))
  | sth a v => exact answers_withReg a fun _ => answers_withReg v fun _ => answers_next (plain_memWrite ..)
  | ldh dst a => exact answers_withReg dst fun _ => answers_withReg a fun _ => answers_next (plain_setReg ..)
  | vga => exact answers_next (plain_emitRedraw s)

end Sys2Proof.Machine
end

