-- ==== Sys2Proof/Laws/PerInstr.lean ====
section
/-! SUPPORT. Statements made per instruction. Layout: the words an instruction is encoded as begin with its opcode's
number, are as many as its size says, and are at most three (30_encoding.md R70, R71). -/

namespace Sys2Proof.Laws.Layout

/-- The layout of one instruction, under every opcode map. -/
def Statement (i : Instr) : Prop :=
  ∀ m : OpcodeMap, (encode m i).head? = some (i.opcode.number m) ∧ (encode m i).length = i.size ∧ i.size ≤ 3

/-- The layout of every instruction, from which the lemma of each constructor is taken. -/
theorem holds (i : Instr) : Statement i := fun m => by
  refine ⟨rfl, ?_, ?_⟩
  · simp [encode, Instr.length_operands, Instr.size, Opcode.size, Nat.add_comm]
  · have := i.opcode.count_le_two
    simp only [Instr.size, Opcode.size]
    omega

theorem nop : Statement .nop := holds _
theorem cop (dst src : Word) : Statement (.cop dst src) := holds _
theorem cpl (dst imm : Word) : Statement (.cpl dst imm) := holds _
theorem str (addrReg valReg : Word) : Statement (.str addrReg valReg) := holds _
theorem ldr (dst addrReg : Word) : Statement (.ldr dst addrReg) := holds _
theorem add (src : Word) : Statement (.add src) := holds _
theorem sub (src : Word) : Statement (.sub src) := holds _
theorem twc (reg : Word) : Statement (.twc reg) := holds _
theorem inc (reg : Word) : Statement (.inc reg) := holds _
theorem dec (reg : Word) : Statement (.dec reg) := holds _
theorem mul (src : Word) : Statement (.mul src) := holds _
theorem div (src : Word) : Statement (.div src) := holds _
theorem dvc (src : Word) : Statement (.dvc src) := holds _
theorem xor (src : Word) : Statement (.xor src) := holds _
theorem and (src : Word) : Statement (.and src) := holds _
theorem orr (src : Word) : Statement (.orr src) := holds _
theorem not (reg : Word) : Statement (.not reg) := holds _
theorem shr (reg amountReg : Word) : Statement (.shr reg amountReg) := holds _
theorem shl (reg amountReg : Word) : Statement (.shl reg amountReg) := holds _
theorem psh (valReg : Word) : Statement (.psh valReg) := holds _
theorem pop (dst : Word) : Statement (.pop dst) := holds _
theorem ret : Statement .ret := holds _
theorem cal (addr : Word) : Statement (.cal addr) := holds _
theorem cmp (r1 r2 : Word) : Statement (.cmp r1 r2) := holds _
theorem cle (addr : Word) : Statement (.cle addr) := holds _
theorem cln (addr : Word) : Statement (.cln addr) := holds _
theorem gto (reg : Word) : Statement (.gto reg) := holds _
theorem gte (reg : Word) : Statement (.gte reg) := holds _
theorem gtn (reg : Word) : Statement (.gtn reg) := holds _
theorem sth (addrReg valReg : Word) : Statement (.sth addrReg valReg) := holds _
theorem ldh (dst addrReg : Word) : Statement (.ldh dst addrReg) := holds _
theorem vga : Statement .vga := holds _

end Sys2Proof.Laws.Layout
end

