-- ==== Sys2Proof/Laws/Step.lean ====
section
/-! SUPPORT. The frame of each shared operation, what a step does, and what the fetch reads. -/

namespace Sys2Proof.Machine

/-! ### Frames of the shared operations -/

theorem frame_setReg (s : State) (r : RegId) (v : Word) : Frame [r] [] s (s.setReg r v) :=
  ⟨fun q hq => by simp at hq; simp [hq], fun _ _ => rfl, rfl, rfl, rfl, rfl⟩

theorem frame_setReg_setReg (s : State) (r q : RegId) (v w : Word) : Frame [r, q] [] s ((s.setReg r v).setReg q w) :=
  ⟨fun p hp => by simp at hp; simp [hp], fun _ _ => rfl, rfl, rfl, rfl, rfl⟩

theorem frame_memWrite (s : State) (a v : Word) : Frame [] [a] s (s.memWrite a v) :=
  ⟨fun _ _ => rfl, fun b hb => by simp at hb; simp [hb], rfl, rfl, rfl, rfl⟩

theorem frame_push (s : State) (v : Word) : Frame [.sp] [s.sp - 1] s (s.push v) := by
  obtain ⟨_, hregs, hmem, hheap, hfault, htrace, hcfg⟩ := push_spec s v
  exact ⟨fun r hr => hregs r (by simpa using hr), fun a ha => by rw [hmem, if_neg (by simpa using ha)], hheap, hfault,
    htrace, hcfg⟩

theorem frame_call (s : State) (target : Word) : Frame [.sp, .pc] [s.sp - 1] s (s.call target) := by
  obtain ⟨_, _, hregs, hmem, hheap, hfault, htrace, hcfg⟩ := call_spec s target
  exact ⟨fun r hr => hregs r (by simp at hr; tauto) (by simp at hr; tauto),
    fun a ha => by rw [hmem, if_neg (by simpa using ha)], hheap, hfault, htrace, hcfg⟩

theorem frame_advance (s : State) (n : Nat) : Frame [.lc, .pc] [] s (s.advance n) :=
  ⟨fun r hr => by simp at hr; exact (advance_spec s n).2.2.1 r hr.1 hr.2, fun _ _ => rfl, rfl, rfl, rfl, rfl⟩

theorem faultedAt_raise (s : State) (kind : Fault) (p : Word) : FaultedAt kind p s (s.raise kind p) :=
  ⟨rfl, fun _ => rfl, fun _ => rfl, rfl, rfl, rfl⟩

theorem faultedAt_raiseHere (s : State) (kind : Fault) : FaultedAt kind s.lc s (s.raiseHere kind) :=
  faultedAt_raise s kind s.lc

/-! ### The step -/

theorem status_running_iff {s : State} : s.status = .running ↔ s.fault = none ∧ s.pc ≠ haltWord := by
  unfold State.status
  cases s.fault <;> by_cases h : s.pc = haltWord <;> simp [h]

theorem step_of_fetch {s : State} {i : Instr} (h : s.status = .running) (hf : s.fetch = .ok i) :
    step s = exec i (s.advance i.size) := by
  simp [step, h, hf]

theorem step_of_fetch_error {s : State} {kind : Fault} (h : s.status = .running) (hf : s.fetch = .error kind) :
    step s = .next (s.raise kind s.pc) := by
  simp [step, h, hf]

/-! ### The fetch -/

/-- The fetch reads memory word by word, as far as 0xFFFE. -/
theorem getElem?_wordsFrom (s : State) : ∀ (n : Nat) (p : Word) (k : Nat), k < n → p.toNat + k < 0xFFFF →
    (s.wordsFrom p n)[k]? = some (s.memRead (p + BitVec.ofNat 16 k)) := by
  intro n
  induction n with
  | zero => intros; omega
  | succ n ih =>
    intro p k hk hp
    have hne : p ≠ haltWord := by
      intro h
      rw [h] at hp
      revert hp
      simp [haltWord]
    simp only [State.wordsFrom, hne, if_false]
    cases k with
    | zero => simp
    | succ k =>
      simp only [List.getElem?_cons_succ]
      rw [ih (p + 1) k (by omega) (by bv_omega)]
      congr 2
      bv_omega

theorem length_wordsFrom (s : State) : ∀ (n : Nat) (p : Word), (s.wordsFrom p n).length = min n (0xFFFF - p.toNat) := by
  intro n
  induction n with
  | zero => simp [State.wordsFrom]
  | succ n ih =>
    intro p
    simp only [State.wordsFrom]
    split
    · rename_i h
      subst h
      simp [haltWord]
    · rename_i h
      have : p.toNat ≠ 0xFFFF := fun h' => h (BitVec.eq_of_toNat_eq (by simpa [haltWord] using h'))
      have := p.isLt
      simp only [List.length_cons, ih]
      bv_omega

end Sys2Proof.Machine

namespace Sys2Proof

theorem Instr.size_pos (i : Instr) : 1 ≤ i.size := by simp [Instr.size, Opcode.size]

theorem Instr.size_le (i : Instr) : i.size ≤ 3 := by
  have := i.opcode.count_le_two
  simp only [Instr.size, Opcode.size]
  omega

theorem length_encode (m : OpcodeMap) (i : Instr) : (encode m i).length = i.size := by
  simp [encode, Instr.length_operands, Instr.size, Opcode.size, Nat.add_comm]

end Sys2Proof
end

