-- ==== Sys2Proof/Laws/Program.lean ====
section
/-! SUPPORT. What writing a run of words leaves, the lengths of a program's words, and bytes against words. -/

namespace Sys2Proof.Machine

/-! ### Runs of words in memory -/

/-- Writing words at consecutive addresses touches memory alone, and keeps its canonical form. -/
theorem memWriteAll_keeps (ws : List Word) : ∀ (s : State) (a : Word),
    (s.memWriteAll a ws).regs = s.regs ∧ (s.memWriteAll a ws).heapOffset = s.heapOffset
    ∧ (s.memWriteAll a ws).fault = s.fault ∧ (s.memWriteAll a ws).trace = s.trace ∧ (s.memWriteAll a ws).cfg = s.cfg
    ∧ (Memory.wf s.cfg.memDefault s.mem → Memory.wf s.cfg.memDefault (s.memWriteAll a ws).mem) := by
  induction ws with
  | nil => exact fun s a => ⟨rfl, rfl, rfl, rfl, rfl, fun h => h⟩
  | cons w ws ih =>
    intro s a
    obtain ⟨hregs, hheap, hfault, htrace, hcfg, hwf⟩ := ih (s.memWrite a w) (a + 1)
    exact ⟨hregs, hheap, hfault, htrace, hcfg, fun h => hwf (State.memWrite_wf h a w)⟩

/-- What every address reads as after words are written from `a` on, without wrapping. -/
theorem memRead_memWriteAll (ws : List Word) : ∀ (s : State) (a b : Word), a.toNat + ws.length ≤ 0x10000 →
    (s.memWriteAll a ws).memRead b =
      if a.toNat ≤ b.toNat ∧ b.toNat < a.toNat + ws.length then ws.getD (b.toNat - a.toNat) 0 else s.memRead b := by
  induction ws with
  | nil => intro s a b _; simp [State.memWriteAll]
  | cons w ws ih =>
    intro s a b h
    simp only [State.memWriteAll, List.length_cons] at *
    by_cases hl : ws.length = 0
    · obtain rfl := List.length_eq_zero_iff.1 hl
      simp only [State.memWriteAll, State.memRead_memWrite]
      by_cases hb : b = a
      · subst hb; simp
      · have : b.toNat ≠ a.toNat := fun h => hb (BitVec.eq_of_toNat_eq h)
        rw [if_neg hb, if_neg]
        simp
        omega
    · have ha : (a + 1).toNat = a.toNat + 1 := by simp; omega
      rw [ih _ _ _ (by omega), ha]
      by_cases hb : b = a
      · subst hb
        rw [if_neg (by omega), if_pos (by omega)]
        simp
      · have : b.toNat ≠ a.toNat := fun h => hb (BitVec.eq_of_toNat_eq h)
        by_cases hh : a.toNat + 1 ≤ b.toNat ∧ b.toNat < a.toNat + 1 + ws.length
        · rw [if_pos hh, if_pos (by omega)]
          have : b.toNat - a.toNat = (b.toNat - (a.toNat + 1)) + 1 := by omega
          rw [this]
          simp
        · rw [if_neg hh, if_neg (by omega)]
          simp [hb]

/-! ### Lengths -/

theorem length_subWords (m : OpcodeMap) (is : List Instr) : (subWords m is).length = subSize is := by
  simp only [subWords, subSize, List.length_flatMap, length_encode]

theorem length_words (m : OpcodeMap) (p : Program) : (p.words m).length = p.size := by
  simp only [Program.words, Program.size, List.length_append, List.length_flatMap, length_subWords]

/-! ### Bytes and words (46_codec.md R182) -/

theorem bytesWord_of_word (w : Word) : bytesWord (w.extractLsb' 8 8) (w.extractLsb' 0 8) = w := by
  unfold bytesWord
  rw [BitVec.extractLsb'_append_extractLsb'_eq_extractLsb' (by rfl)]
  simp

theorem bytesWords_wordBytes (ws : List Word) : bytesWords (ws.flatMap wordBytes) = ws := by
  induction ws with
  | nil => rfl
  | cons w ws ih =>
    simp only [List.flatMap_cons, wordBytes, List.cons_append, List.nil_append, bytesWords, ih, bytesWord_of_word]

theorem wordBytes_bytesWord (hi lo : Byte) : wordBytes (bytesWord hi lo) = [hi, lo] := by
  simp only [wordBytes, bytesWord, List.cons.injEq, and_true]
  constructor
  · apply BitVec.eq_of_getLsbD_eq
    intro i h
    have : (hi ++ lo : BitVec (8 + 8)).getLsbD (8 + i) = hi.getLsbD i := by rw [BitVec.getLsbD_append]; simp
    rw [BitVec.getLsbD_extractLsb']
    simp [h]
    exact this
  · apply BitVec.eq_of_getLsbD_eq
    intro i h
    have : (hi ++ lo : BitVec (8 + 8)).getLsbD (0 + i) = lo.getLsbD i := by rw [BitVec.getLsbD_append]; simp [h]
    rw [BitVec.getLsbD_extractLsb']
    simp [h] at this ⊢
    exact this

theorem wordBytes_bytesWords : ∀ bs : List Byte, bs.length % 2 = 0 → (bytesWords bs).flatMap wordBytes = bs
  | [], _ => rfl
  | [_], h => by simp at h
  | a :: b :: bs, h => by
    simp only [bytesWords, List.flatMap_cons, wordBytes_bytesWord,
      wordBytes_bytesWords bs (by simp at h; omega)]
    rfl

end Sys2Proof.Machine
end

