-- ==== Sys2Proof/Tests/Slice0.lean ====
section
/-! SUPPORT. The model's own tests. Every expected value stands in the spec: the table of 30_encoding.md R73, the
vectors of 95_test_vectors.md, or the example of the rule the test names. The second part gives, for every obligation
with hypotheses, states and operands that meet them. -/

namespace Sys2Proof.Tests

open Sys2Proof Sys2Proof.Machine

/-! ### Helpers -/

/-- The standard configuration with two distinct markers and an empty `ARG_META` list chosen for the tests. -/
def cfg : Config := { Config.standard with biTrue := 0xB001, biFalse := 0xB000, argMeta := [] }

/-- `cfg` with the other sign rule of the `dvc` remainder. -/
def cfgDividend : Config := { cfg with dvcRemSign := .dividend }

/-- `cfg` with a text region of two words. -/
def cfgSmall : Config := { cfg with stackMin := 2 }

/-- A state with every register 0 and no memory written. -/
def blank (c : Config) : State := ⟨Vector.replicate 16 0, [], 0x1031, none, [], c⟩

/-- The start state of 95_test_vectors.md under a configuration: `pc = 0x1000`, `sp = 0x0FFF`, `heapOffset = 0x1031`;
then the registers and the memory words given, and the words `ws` at `pc`. -/
def startWith (c : Config) (regs : List (RegId × Word)) (mem : List (Word × Word)) (ws : List Word) : State :=
  let s := ((blank c).setReg .pc 0x1000).setReg .sp 0x0FFF
  let s := regs.foldl (fun s rv => s.setReg rv.1 rv.2) s
  let s := mem.foldl (fun s av => s.memWrite av.1 av.2) s
  s.memWriteAll s.pc ws

/-- `startWith` under the test configuration. -/
def start (regs : List (RegId × Word)) (mem : List (Word × Word)) (ws : List Word) : State := startWith cfg regs mem ws

/-- What a result answers, if it is a next state. -/
def next? : Result → Option State
  | .next t => some t
  | .fault _ => none
  | .refused _ => none

/-- The state a result answers, for a result known to be a next state. -/
def nextOf (r : Result) : State := (next? r).getD (blank cfg)

/-- One step from `s` answers a next state that meets `p`. -/
def stepGives (s : State) (p : State → Bool) : Bool := ((next? (step s)).map p).getD false

/-- One step runs the instruction to its end: no fault, `lc` at the instruction, `pc` at `pc'`, and `p`. -/
def runsTo (s : State) (pc' : Word) (p : State → Bool) : Bool :=
  stepGives s fun t => t.fault == none && t.lc == s.pc && t.pc == pc' && p t

/-- One step latches the fault `kind` at the instruction's address, with `lc` and `pc` advanced by `n` words and every
other register kept. -/
def faultsAfter (s : State) (n : Nat) (kind : Fault) : Bool :=
  stepGives s fun t => t.fault == some (kind, s.pc) && t.regs == (s.advance n).regs && t.mem == s.mem

/-- One step latches the fault `kind` at the instruction's address and changes no register. -/
def faultsAt (s : State) (kind : Fault) : Bool :=
  stepGives s fun t => t.fault == some (kind, s.pc) && t.regs == s.regs && t.mem == s.mem

/-! ### Well-formedness -/

/-- Each register operand position is checked: 16 is refused there, 15 is not. -/
theorem test_wellFormed_refuses_register_16 :
    ∀ i ∈ ([.cop 16 0, .cop 0 16, .cpl 16 0, .str 16 0, .str 0 16, .ldr 16 0, .ldr 0 16, .add 16, .sub 16, .twc 16, .inc 16,
      .dec 16, .mul 16, .div 16, .dvc 16, .xor 16, .and 16, .orr 16, .not 16, .shr 16 0, .shr 0 16, .shl 16 0,
      .shl 0 16, .psh 16, .pop 16, .cmp 16 0, .cmp 0 16, .gto 16, .gte 16, .gtn 16, .sth 16 0, .sth 0 16, .ldh 16 0,
      .ldh 0 16] : List Instr), ¬ i.wellFormed := by decide

theorem test_wellFormed_admits_register_15_and_any_immediate :
    ∀ i ∈ ([.cop 15 15, .cpl 15 0xFFFF, .cal 0xFFFF, .cle 0xFFFF, .cln 0xFFFF, .nop, .ret, .vga, .ldh 15 15] : List Instr),
      i.wellFormed := by decide

/-! ### Decoding: words written out from 30_encoding.md R73 -/

theorem test_decode_data_movement :
    decode OpcodeMap.standard [0x0000] = .ok (.nop, [])
    ∧ decode OpcodeMap.standard [0x0001, 0x0000, 0x000A] = .ok (.cop 0 10, [])
    ∧ decode OpcodeMap.standard [0x0002, 0x000C, 0x0003] = .ok (.cpl 12 3, [])
    ∧ decode OpcodeMap.standard [0x0003, 0x0000, 0x0001] = .ok (.str 0 1, [])
    ∧ decode OpcodeMap.standard [0x0004, 0x0001, 0x0000] = .ok (.ldr 1 0, []) := ⟨rfl, rfl, rfl, rfl, rfl⟩

theorem test_decode_arithmetic :
    decode OpcodeMap.standard [0x0005, 0x0001] = .ok (.add 1, [])
    ∧ decode OpcodeMap.standard [0x0006, 0x0001] = .ok (.sub 1, [])
    ∧ decode OpcodeMap.standard [0x0007, 0x0002] = .ok (.twc 2, [])
    ∧ decode OpcodeMap.standard [0x0008, 0x0000] = .ok (.inc 0, [])
    ∧ decode OpcodeMap.standard [0x0009, 0x0000] = .ok (.dec 0, [])
    ∧ decode OpcodeMap.standard [0x000A, 0x0003] = .ok (.mul 3, [])
    ∧ decode OpcodeMap.standard [0x000B, 0x000D] = .ok (.div 13, [])
    ∧ decode OpcodeMap.standard [0x000C, 0x0001] = .ok (.dvc 1, []) := ⟨rfl, rfl, rfl, rfl, rfl, rfl, rfl, rfl⟩

theorem test_decode_logic_and_shifts :
    decode OpcodeMap.standard [0x000D, 0x000C] = .ok (.xor 12, [])
    ∧ decode OpcodeMap.standard [0x000E, 0x0001] = .ok (.and 1, [])
    ∧ decode OpcodeMap.standard [0x000F, 0x0001] = .ok (.orr 1, [])
    ∧ decode OpcodeMap.standard [0x0010, 0x0004] = .ok (.not 4, [])
    ∧ decode OpcodeMap.standard [0x0011, 0x0000, 0x0001] = .ok (.shr 0 1, [])
    ∧ decode OpcodeMap.standard [0x0012, 0x0000, 0x0001] = .ok (.shl 0 1, []) := ⟨rfl, rfl, rfl, rfl, rfl, rfl⟩

theorem test_decode_stack_and_control :
    decode OpcodeMap.standard [0x0013, 0x000C] = .ok (.psh 12, [])
    ∧ decode OpcodeMap.standard [0x0014, 0x0003] = .ok (.pop 3, [])
    ∧ decode OpcodeMap.standard [0x0015] = .ok (.ret, [])
    ∧ decode OpcodeMap.standard [0x0016, 0x2000] = .ok (.cal 0x2000, [])
    ∧ decode OpcodeMap.standard [0x0017, 0x0000, 0x0001] = .ok (.cmp 0 1, [])
    ∧ decode OpcodeMap.standard [0x0018, 0x2000] = .ok (.cle 0x2000, [])
    ∧ decode OpcodeMap.standard [0x0019, 0x2000] = .ok (.cln 0x2000, [])
    ∧ decode OpcodeMap.standard [0x001A, 0x0004] = .ok (.gto 4, [])
    ∧ decode OpcodeMap.standard [0x001B, 0x0004] = .ok (.gte 4, [])
    ∧ decode OpcodeMap.standard [0x001C, 0x0002] = .ok (.gtn 2, []) :=
  ⟨rfl, rfl, rfl, rfl, rfl, rfl, rfl, rfl, rfl, rfl⟩

theorem test_decode_heap_and_video :
    decode OpcodeMap.standard [0x001D, 0x0007, 0x0001] = .ok (.sth 7 1, [])
    ∧ decode OpcodeMap.standard [0x001E, 0x0008, 0x0007] = .ok (.ldh 8 7, [])
    ∧ decode OpcodeMap.standard [0x001F] = .ok (.vga, []) := ⟨rfl, rfl, rfl⟩

/-- R79: a word past the table is illegal, whatever its low bits; R82: an instruction cut short has no meaning; the
words after an instruction are left. -/
theorem test_decode_rejects_by_name :
    decode OpcodeMap.standard [0x0020, 0x0000] = .error (.unknownOpcode 0x0020)
    ∧ decode OpcodeMap.standard [0x0105, 0x0001] = .error (.unknownOpcode 0x0105)
    ∧ decode OpcodeMap.standard [0xFFFF] = .error (.unknownOpcode 0xFFFF)
    ∧ decode OpcodeMap.standard [0x0002, 0x000C] = .error (.missingOperand .cpl)
    ∧ decode OpcodeMap.standard [] = .error .noWords
    ∧ decode OpcodeMap.standard [0x0005, 0x0063, 0x0015] = .ok (.add 0x63, [0x0015]) :=
  ⟨rfl, rfl, rfl, rfl, rfl, rfl⟩

/-- A table word holds its first word in its least significant bits; bits it is not given are 0. -/
theorem test_decodeTableWord_lays_words_out :
    decodeTableWord 48 0x0003_000C_0002 = some (.cpl 12 3) ∧ decodeTableWord 16 0x0005 = some (.add 0)
    ∧ decodeTableWord 32 0x2000_0016 = some (.cal 0x2000) ∧ decodeTableWord 16 0x0020 = none := ⟨rfl, rfl, rfl, rfl⟩

/-! ### Steps: the vectors of 95_test_vectors.md, sections 2 and 3 -/

/-- A1. -/
theorem test_nop : runsTo (start [] [] [0x0000]) 0x1001 (fun t => t.reg 0 == 0 && t.sp == 0x0FFF) = true := by decide

/-- A2. -/
theorem test_cop : runsTo (start [(1, 0x00AB)] [] [0x0001, 0, 1]) 0x1003 (fun t => t.reg 0 == 0x00AB) = true := by
  decide

/-- A40: during execution `pc` reads as the next instruction's address. -/
theorem test_cop_from_pc : runsTo (start [] [] [0x0001, 0, 10]) 0x1003 (fun t => t.reg 0 == 0x1003) = true := by decide

/-- A38. -/
theorem test_cpl : runsTo (start [] [] [0x0002, 12, 3]) 0x1003 (fun t => t.ac == 3) = true := by decide

/-- A39: the step lands on 0xFFFF and reports `Halted`. -/
theorem test_cpl_to_pc_halts :
    runsTo (start [] [] [0x0002, 10, 0xFFFF]) 0xFFFF (fun t => t.status == .halted) = true := by decide

/-- K1. -/
theorem test_str :
    runsTo (start [(0, 0x2000), (1, 0x0042)] [] [0x0003, 0, 1]) 0x1003 (fun t => t.memRead 0x2000 == 0x0042) = true := by
  decide

/-- K4: a store to 0xFFFF is ordinary. -/
theorem test_str_to_halt_address :
    runsTo (start [(0, 0xFFFF), (1, 7)] [] [0x0003, 0, 1]) 0x1003
      (fun t => t.memRead 0xFFFF == 7 && t.status == .running) = true := by decide

/-- K2. -/
theorem test_ldr :
    runsTo (start [(0, 0x2000)] [(0x2000, 0x0042)] [0x0004, 1, 0]) 0x1003 (fun t => t.reg 1 == 0x0042) = true := by decide

/-- K3. -/
theorem test_ldr_never_written :
    runsTo (start [(0, 0x3000), (1, 5)] [] [0x0004, 1, 0]) 0x1003 (fun t => t.reg 1 == 0) = true := by decide

/-- A4. -/
theorem test_add_wraps :
    runsTo (start [(12, 0xFFFF), (1, 1)] [] [0x0005, 1]) 0x1002 (fun t => t.ac == 0 && t.reg 1 == 1) = true := by decide

/-- A3, second half. -/
theorem test_sub : runsTo (start [(12, 8), (1, 5)] [] [0x0006, 1]) 0x1002 (fun t => t.ac == 3) = true := by decide

/-- A5, first half. -/
theorem test_twc : runsTo (start [(2, 7)] [] [0x0007, 2]) 0x1002 (fun t => t.reg 2 == 0xFFF9) = true := by decide

/-- A6. -/
theorem test_twc_of_least : runsTo (start [(2, 0x8000)] [] [0x0007, 2]) 0x1002 (fun t => t.reg 2 == 0x8000) = true := by
  decide

/-- A8. -/
theorem test_inc_wraps : runsTo (start [(0, 0xFFFF)] [] [0x0008, 0]) 0x1002 (fun t => t.reg 0 == 0) = true := by decide

/-- A9. -/
theorem test_dec_wraps : runsTo (start [] [] [0x0009, 0]) 0x1002 (fun t => t.reg 0 == 0xFFFF) = true := by decide

/-- A11; `ex` is kept. -/
theorem test_mul :
    runsTo (start [(12, 0xFFFF), (3, 0xFFFF), (13, 9)] [] [0x000A, 3]) 0x1002 (fun t => t.ac == 1 && t.ex == 9) = true := by
  decide

/-- A16: the operands are unsigned. -/
theorem test_div_is_unsigned :
    runsTo (start [(12, 0xFFF9), (1, 2)] [] [0x000B, 1]) 0x1002 (fun t => t.ac == 0x7FFC && t.ex == 1) = true := by decide

/-- A14: the divisor is the old `ex`. -/
theorem test_div_by_ex :
    runsTo (start [(12, 10), (13, 3)] [] [0x000B, 13]) 0x1002 (fun t => t.ac == 3 && t.ex == 1) = true := by decide

/-- A17 and A20, under the `magnitude` rule. -/
theorem test_dvc_magnitude :
    runsTo (start [(12, 0xFFF9), (1, 2)] [] [0x000C, 1]) 0x1002 (fun t => t.ac == 0xFFFD && t.ex == 1) = true
    ∧ runsTo (start [(12, 0x8000), (1, 0xFFFF)] [] [0x000C, 1]) 0x1002 (fun t => t.ac == 0x8000 && t.ex == 0) = true := by
  decide

/-- A18 and A24, under the `dividend` rule. -/
theorem test_dvc_dividend :
    runsTo (startWith cfgDividend [(12, 7), (1, 0xFFFE)] [] [0x000C, 1]) 0x1002
      (fun t => t.ac == 0xFFFD && t.ex == 1) = true
    ∧ runsTo (startWith cfgDividend [(12, 0xFFFB), (1, 0x8000)] [] [0x000C, 1]) 0x1002
      (fun t => t.ac == 0 && t.ex == 0xFFFB) = true := by decide

/-- A26 and A27. -/
theorem test_division_by_zero_faults :
    faultsAfter (start [(12, 0x1234)] [] [0x000B, 1]) 2 .divideByZero = true
    ∧ faultsAfter (start [(12, 0x1234)] [] [0x000C, 1]) 2 .divideByZero = true := by decide

/-- A28. -/
theorem test_xor_and_orr :
    runsTo (start [(12, 0x00F0), (1, 0x0FF0)] [] [0x000D, 1]) 0x1002 (fun t => t.ac == 0x0F00) = true
    ∧ runsTo (start [(12, 0x00F0), (1, 0x0FF0)] [] [0x000E, 1]) 0x1002 (fun t => t.ac == 0x00F0) = true
    ∧ runsTo (start [(12, 0x00F0), (1, 0x0FF0)] [] [0x000F, 1]) 0x1002 (fun t => t.ac == 0x0FF0) = true := by decide

/-- A30. -/
theorem test_not : runsTo (start [(4, 0x00FF)] [] [0x0010, 4]) 0x1002 (fun t => t.reg 4 == 0xFF00) = true := by decide

/-- A31: zeros enter at bit 15. -/
theorem test_shr : runsTo (start [(0, 0x8001), (1, 1)] [] [0x0011, 0, 1]) 0x1003 (fun t => t.reg 0 == 0x4000) = true := by
  decide

/-- A37: the amount is the old value of the same register. -/
theorem test_shl_by_itself : runsTo (start [(0, 2)] [] [0x0012, 0, 0]) 0x1003 (fun t => t.reg 0 == 8) = true := by decide

/-- A33: an amount of 16 is not masked. -/
theorem test_shifts_by_16 :
    runsTo (start [(0, 0xFFFF), (1, 16)] [] [0x0011, 0, 1]) 0x1003 (fun t => t.reg 0 == 0) = true
    ∧ runsTo (start [(0, 0xFFFF), (1, 16)] [] [0x0012, 0, 1]) 0x1003 (fun t => t.reg 0 == 0) = true := by decide

/-- K5. -/
theorem test_psh :
    runsTo (start [(12, 0x1234)] [] [0x0013, 12]) 0x1002 (fun t => t.sp == 0x0FFE && t.memRead 0x0FFE == 0x1234) = true := by
  decide

/-- K6: the value is read before `sp` is decremented. -/
theorem test_psh_sp :
    runsTo (start [] [] [0x0013, 11]) 0x1002 (fun t => t.sp == 0x0FFE && t.memRead 0x0FFE == 0x0FFF) = true := by decide

/-- The example of R153. -/
theorem test_pop :
    runsTo (start [] [(0x0FFF, 0xFFFF)] [0x0014, 0]) 0x1002 (fun t => t.reg 0 == 0xFFFF && t.sp == 0x1000) = true := by
  decide

/-- K8: the destination is written after `sp` is incremented. -/
theorem test_pop_sp :
    runsTo (start [(11, 0x0FFE)] [(0x0FFE, 0x2000)] [0x0014, 11]) 0x1002 (fun t => t.sp == 0x2000) = true := by decide

/-- K12. -/
theorem test_ret_halts :
    runsTo (start [] [(0x0FFF, 0xFFFF)] [0x0015]) 0xFFFF (fun t => t.sp == 0x1000 && t.status == .halted) = true := by
  decide

/-- K11, first half. -/
theorem test_cal :
    runsTo (start [] [] [0x0016, 0x2000]) 0x2000 (fun t => t.sp == 0x0FFE && t.memRead 0x0FFE == 0x1002) = true := by decide

/-- K13. -/
theorem test_cmp :
    runsTo (start [(0, 6), (1, 6)] [] [0x0017, 0, 1]) 0x1003 (fun t => t.bi == cfg.biTrue) = true
    ∧ runsTo (start [(0, 6), (1, 5)] [] [0x0017, 0, 1]) 0x1003 (fun t => t.bi == cfg.biFalse) = true := by decide

/-- K14 and K15. -/
theorem test_cle :
    runsTo (start [(14, 0xB001)] [] [0x0018, 0x2000]) 0x2000
      (fun t => t.sp == 0x0FFE && t.memRead 0x0FFE == 0x1002) = true
    ∧ runsTo (start [(14, 0xB000)] [] [0x0018, 0x2000]) 0x1002 (fun t => t.sp == 0x0FFF) = true := by decide

/-- K16, and the branch not taken. -/
theorem test_cln :
    runsTo (start [(14, 0xB000)] [] [0x0019, 0x2000]) 0x2000
      (fun t => t.sp == 0x0FFE && t.memRead 0x0FFE == 0x1002) = true
    ∧ runsTo (start [(14, 0xB001)] [] [0x0019, 0x2000]) 0x1002 (fun t => t.sp == 0x0FFF) = true := by decide

/-- K17 and K18. -/
theorem test_gto :
    runsTo (start [(4, 0x1021)] [] [0x001A, 4]) 0x1021 (fun _ => true) = true
    ∧ runsTo (start [] [] [0x001A, 10]) 0x1002 (fun _ => true) = true := by decide

/-- K19. -/
theorem test_gte :
    runsTo (start [(14, 0xB001), (4, 0x1021)] [] [0x001B, 4]) 0x1021 (fun _ => true) = true
    ∧ runsTo (start [(14, 0xB000), (4, 0x1021)] [] [0x001B, 4]) 0x1002 (fun _ => true) = true := by decide

/-- K20, and the branch not taken. -/
theorem test_gtn :
    runsTo (start [(14, 0xB000), (2, 0x1009)] [] [0x001C, 2]) 0x1009 (fun _ => true) = true
    ∧ runsTo (start [(14, 0xB001), (2, 0x1009)] [] [0x001C, 2]) 0x1002 (fun _ => true) = true := by decide

/-- K21: a word that is neither marker. -/
theorem test_conditionals_need_a_marker :
    ([[0x0018, 0x2000], [0x0019, 0x2000], [0x001B, 4], [0x001C, 4]] : List (List Word)).all
      (fun ws => faultsAfter (start [] [] ws) 2 .biIndeterminate) = true := by decide

/-- K22. -/
theorem test_sth :
    runsTo (start [(1, 2)] [] [0x001D, 7, 1]) 0x1003 (fun t => t.memRead 0x1031 == 2) = true := by decide

/-- K24: the address wraps. -/
theorem test_sth_wraps :
    runsTo (start [(7, 0xEFCF), (1, 9)] [] [0x001D, 7, 1]) 0x1003 (fun t => t.memRead 0 == 9) = true := by decide

/-- K23. -/
theorem test_ldh :
    runsTo (start [] [(0x1031, 2)] [0x001E, 8, 7]) 0x1003 (fun t => t.reg 8 == 2) = true := by decide

/-- K25, with a text region of two words: the event copies it, the words beyond it do not matter. -/
theorem test_vga :
    runsTo (startWith cfgSmall [] [(0, 0x0041), (2, 7)] [0x001F]) 0x1001 (fun t => t.trace == [⟨[0x0041, 0]⟩]) = true := by
  decide

/-! ### The step and its faults: 95_test_vectors.md, section 4 -/

/-- E1, E3, E4: the faults of decode change no register. -/
theorem test_decode_faults :
    faultsAt (start [] [] [0x0020]) .unknownOpcode = true
    ∧ faultsAt (start [(10, 0xFFFE)] [] [0x0008]) .operandAtHaltAddress = true
    ∧ faultsAt (start [(10, 0xFFFD)] [] [0x0002]) .operandAtHaltAddress = true := by decide

/-- E2: a word never written decodes as `nop`. -/
theorem test_never_written_word_is_nop : runsTo (start [] [] []) 0x1001 (fun _ => true) = true := by decide

/-- E5: a one-word instruction at 0xFFFE runs, and the engine halts. -/
theorem test_nop_before_halt_address :
    runsTo (start [(10, 0xFFFE)] [] [0x0000]) 0xFFFF (fun t => t.status == .halted) = true := by decide

/-- E6, E7, E8, E11: an invalid register is reported before any other cause, and nothing is written. -/
theorem test_invalid_register_comes_first :
    faultsAfter (start [] [] [0x0005, 16]) 2 .invalidRegister = true
    ∧ faultsAfter (start [] [] [0x001B, 16]) 2 .invalidRegister = true
    ∧ faultsAfter (start [] [] [0x000B, 16]) 2 .invalidRegister = true
    ∧ faultsAfter (start [] [] [0x0002, 16, 5]) 3 .invalidRegister = true := by decide

/-- E9, E10: a halted engine and a faulted engine do nothing. -/
theorem test_stopped_engine :
    stepGives (start [(10, 0xFFFF)] [] []) (fun t => t == start [(10, 0xFFFF)] [] [] && t.status == .halted) = true
    ∧ stepGives ((start [] [] [0x0008, 0]).raise .divideByZero 5)
      (fun t => t == (start [] [] [0x0008, 0]).raise .divideByZero 5 && t.status == .faulted) = true := by decide

/-- E12: a store over the instruction itself does not change what this step does. -/
theorem test_store_over_itself :
    runsTo (start [(0, 0x1000), (1, 0x0015)] [] [0x0003, 0, 1]) 0x1003 (fun t => t.memRead 0x1000 == 0x0015) = true := by
  decide

/-- `withFetchWord` places an instruction where the next step runs it, from reset and from a state that stands just
below 0xFFFF. -/
theorem test_withFetchWord :
    ((next? (step (State.reset.withFetchWord 48 0x0003_000C_0002))).map fun t => t.ac) = some 3
    ∧ ((next? (step ((start [(10, 0xFFFE)] [] []).withFetchWord 32 0x0001_0008))).map fun t => t.reg 1) = some 1 := by
  decide

/-- A store that puts back what an unlisted address reads as leaves memory as it was (20_memory.md R51). -/
theorem test_memory_is_canonical :
    (((blank cfg).memWrite 0x2000 5).memWrite 0x2000 0).mem = (blank cfg).mem
    ∧ (((blank cfg).memWrite 5 1).memWrite 3 2).mem = (((blank cfg).memWrite 3 2).memWrite 5 1).mem := by decide

/-! ### Reset and load -/

/-- Reset is the load of the program of no words (assumption 11). -/
theorem test_reset_is_the_load_of_an_empty_program : load Config.standard ⟨[], [[]]⟩ = .ok State.reset := by
  have hv : ¬ ¬ Config.standard.valid := fun h => h Config.standard_valid
  unfold load
  rw [if_neg hv]
  rfl

/-- 95_test_vectors.md, section 6: the loaded state of P5, and the halt after its last `ret`. -/
theorem test_load_of_P5 :
    (match loadBinary cfg [0x53, 0x56, 0x43, 0x42, 0xFF, 0xFF, 0x00, 0x05, 0x00, 0x13, 0x00, 0x0C, 0x00, 0x14, 0x00, 0x0C,
        0x00, 0x15, 0xFF, 0xFF] with
      | none => false
      | some s => s.sp == 0x0FFF && s.memRead 0x0FFF == 0xFFFF && s.pc == 0x1000 && s.heapOffset == 0x1005
          && s.memRead 0x1004 == 0x0015) = true := by decide

/-- The loader refuses parameters that break R9, and a program that would reach 0xFFFF. -/
theorem test_load_refuses :
    load { cfg with biFalse := 0xB001 } ⟨[], [[.ret]]⟩ = .error .badParameters
    ∧ load { cfg with programOffset := 0x2000 } ⟨[], [[.ret]]⟩ = .error .badParameters
    ∧ load cfg ⟨[], []⟩ = .error .noSubroutine
    ∧ load { cfg with stackMax := 0xFFFD, programOffset := 0xFFFE } ⟨[1], [[.ret]]⟩ = .error .programTooLarge := by
  decide +kernel

/-- Argument words go to the heap base or above; one below it is refused. -/
theorem test_loadArguments :
    ((start [] [] []).loadArguments [(0x1031, 0x68), (0x1032, 0)]).map (fun t => t.memRead 0x1031) = some 0x68
    ∧ ((start [] [] []).loadArguments [(0x1030, 1)]).isNone = true := by decide

/-! ### Host moves (40_execution_cycle.md R113) -/

theorem test_host_moves :
    hostMove (.readReg 11) (start [] [] []) = .next (start [] [] [], .word 0x0FFF)
    ∧ hostMove (.writeMem 5 9) (start [] [] []) = .next ((start [] [] []).memWrite 5 9, .nothing)
    ∧ hostMove .step (start [] [] [0x0000]) = .next ((start [] [] [0x0000]).advance 1, .status .running) :=
  ⟨rfl, rfl, rfl⟩

/-- R111: a run ends when a step reports `Halted`; out of fuel is no verdict. -/
theorem test_run :
    (match run 1 (start [] [(0x0FFF, 0xFFFF)] [0x0015]) with
      | .halted t => t.lc == 0x1000
      | .faulted _ => false
      | .outOfFuel _ => false
      | .stopped => false) = true
    ∧ run 0 (start [] [] []) = .outOfFuel (start [] [] []) := ⟨by decide, rfl⟩

/-! ### The codec: 95_test_vectors.md, section 5 -/

/-- The bytes of a body after the magic. -/
def svcb (body : List Byte) : List Byte := [0x53, 0x56, 0x43, 0x42] ++ body

/-- B1 to B5: what is wrong with the container. -/
theorem test_codec_container_errors :
    decodeProgram cfg [0x53, 0x56, 0x43] = .error .badMagic
    ∧ decodeProgram cfg [0x53, 0x56, 0x43, 0x41, 0xFF, 0xFF, 0, 1, 0, 0x15, 0xFF, 0xFF] = .error .badMagic
    ∧ decodeProgram cfg (svcb []) = .error (.truncated 0)
    ∧ decodeProgram cfg (svcb [0xFF, 0xFF, 0]) = .error (.truncated 1)
    ∧ decodeProgram cfg (svcb [0xFF, 0xFF, 0xFF, 0xFF]) = .error .noSubroutine := ⟨rfl, rfl, rfl, rfl, rfl⟩

/-- B6, B7, B10, B14, B15: what decodes. -/
theorem test_codec_decodes :
    decodeProgram cfg (svcb [0xFF, 0xFF, 0, 1, 0, 0x15, 0xFF, 0xFF]) = .ok ⟨[], [[.ret]]⟩
    ∧ decodeProgram cfg (svcb [0xFF, 0xFF, 0, 1, 0, 0x15]) = .ok ⟨[], [[.ret]]⟩
    ∧ decodeProgram cfg (svcb [0x10, 0, 0xFF, 0xFF, 0xFF, 0xFF, 0, 1, 0, 0x15, 0xFF, 0xFF]) = .ok ⟨[0xFFFF], [[.ret]]⟩
    ∧ decodeProgram cfg (svcb [0xFF, 0xFF, 0, 0, 0, 1, 0, 0x15, 0xFF, 0xFF]) = .ok ⟨[], [[], [.ret]]⟩
    ∧ decodeProgram cfg (svcb [0xFF, 0xFF, 0, 2, 0, 5, 0, 0x63, 0xFF, 0xFF]) = .ok ⟨[], [[.add 0x63]]⟩ :=
  ⟨rfl, rfl, rfl, rfl, rfl⟩

/-- B8, B9, B11, B12, B13: what is wrong with the sections. -/
theorem test_codec_section_errors :
    decodeProgram cfg (svcb [0xFF, 0xFF, 0, 1, 0, 0x15, 0xFF, 0xFF, 0, 0]) = .error (.trailingData 4)
    ∧ decodeProgram cfg (svcb [0x10, 1, 0, 5, 0xFF, 0xFF, 0, 1, 0, 0x15, 0xFF, 0xFF]) = .error (.constantAddress 0 0x1001)
    ∧ decodeProgram cfg (svcb [0xFF, 0xFF, 0, 1, 0, 0x20, 0xFF, 0xFF]) = .error (.unknownOpcode 0x0020 2)
    ∧ decodeProgram cfg (svcb [0xFF, 0xFF, 0, 2, 0, 2, 0, 0, 0xFF, 0xFF]) = .error (.instructionCrossesSubroutine 2)
    ∧ decodeProgram cfg (svcb [0xFF, 0xFF, 0, 5, 0, 0x15, 0xFF, 0xFF]) = .error (.truncated 2) :=
  ⟨rfl, rfl, rfl, rfl, rfl⟩

/-- R189: `ProgramTooLarge` carries the program's size in words. -/
theorem test_codec_program_too_large :
    decodeProgram { cfg with stackMax := 0xFFFD, programOffset := 0xFFFE }
      (svcb [0xFF, 0xFE, 0, 7, 0xFF, 0xFF, 0, 1, 0, 0x15, 0xFF, 0xFF]) = .error (.programTooLarge 2) := rfl

/-- Program P4 of section 6: its binary. -/
theorem test_codec_encodes_P4 :
    encodeProgram cfg ⟨[5], [[.cpl 12 3, .cpl 0 0x1000, .ldr 1 0, .add 1, .ret]]⟩
      = svcb ([0x10, 0, 0, 5, 0xFF, 0xFF, 0, 0x0C, 0, 2, 0, 0x0C, 0, 3, 0, 2, 0, 0, 0x10, 0] ++
          [0, 4, 0, 1, 0, 0, 0, 5, 0, 1, 0, 0x15, 0xFF, 0xFF]) := by decide

/-! ### The assembler: 95_test_vectors.md, section 5 -/

/-- The lines of a source text, numbered from 1. -/
def source (texts : List String) : List Line := texts.mapIdx fun k t => ⟨k + 1, lexLine t.toList⟩

/-- What the assembler answers for a source text. -/
def asm (texts : List String) : Except AsmError Program := assemble cfg (source texts)

/-- The kind of error the assembler reports for a source text. -/
def asmErrorOf (texts : List String) : Option AsmErrorKind :=
  match asm texts with
  | .ok _ => none
  | .error e => some e.kind

/-- The name `name` between braces. -/
def braced (name : String) : String :=
  String.ofList (Char.ofNat 0x7B :: (name.toList ++ [Char.ofNat 0x7D]))

/-- Y1: a forward label reference. -/
theorem test_asm_forward_label :
    asm ["main:", "cpl r0 &end ; forward", "gto r0", "&end", "ret"] = .ok ⟨[], [[.cpl 0 0x1005, .gto 0, .ret]]⟩ := by
  rfl

/-- Y4, Y6, Y16: a recursive call, decimal literals at the ends of their range, a register name as an immediate. -/
theorem test_asm_operand_forms :
    asm ["main:", "cal " ++ braced "main"] = .ok ⟨[], [[.cal 0x1000]]⟩
    ∧ asm ["main:", "cpl r0 -1", "cpl r0 65535", "cpl r0 -32768"]
        = .ok ⟨[], [[.cpl 0 0xFFFF, .cpl 0 0xFFFF, .cpl 0 0x8000]]⟩
    ∧ asm ["main:", "cpl r0 ac"] = .ok ⟨[], [[.cpl 0 12]]⟩ := ⟨rfl, rfl, rfl⟩

/-- Y17: the empty string is one zero word, and a constant reference is its address. -/
theorem test_asm_string_constant :
    asm ["s = \"\"", "main:", "cpl r0 [s]", "ret"] = .ok ⟨[0], [[.cpl 0 0x1000, .ret]]⟩
    ∧ asm ["s = \"a  b\"", "main:", "ret"] = .ok ⟨[0x61, 0x20, 0x62, 0], [[.ret]]⟩ := ⟨rfl, rfl⟩

/-- Y2, Y3, Y5, Y14, Y15: the `main` check and undeclared names. -/
theorem test_asm_undeclared :
    asmErrorOf ["foo:", "ret"] = some .missingMain
    ∧ asmErrorOf ["main:", "ret", "foo:", "ret"] = some .missingMain
    ∧ asmErrorOf ["a:", "cal " ++ braced "b", "b:", "ret"] = some .undeclaredSubroutine
    ∧ asmErrorOf ["main:", "cpl r0 [y]"] = some .undeclaredConstant
    ∧ asmErrorOf ["f:", "&l", "ret", "main:", "cpl r0 &l", "ret"] = some .undeclaredLabel := ⟨rfl, rfl, rfl, rfl, rfl⟩

/-- Y7 to Y11: malformed literals, operand counts and mnemonics. -/
theorem test_asm_malformed :
    asmErrorOf ["main:", "cpl r0 65536"] = some .malformedNumber
    ∧ asmErrorOf ["main:", "cpl r0 -32769"] = some .malformedNumber
    ∧ asmErrorOf ["main:", "cpl r0 0x12345"] = some .malformedHex
    ∧ asmErrorOf ["main:", "cpl r0 0x"] = some .malformedHex
    ∧ asmErrorOf ["main:", "cpl r0 0xG1"] = some .malformedHex
    ∧ asmErrorOf ["x = 0x0005", "main:", "add x"] = some .malformedNumber
    ∧ asmErrorOf ["main:", "add r0 r1"] = some .wrongOperandCount
    ∧ asmErrorOf ["main:", "mov r0 r1"] = some .unknownMnemonic := ⟨rfl, rfl, rfl, rfl, rfl, rfl, rfl, rfl⟩

/-- R227 and decision D28: a token with a `(` is `MalformedNumber`, whatever form it would match. -/
theorem test_asm_parenthesis :
    asmErrorOf ["main:", "cpl r0 (r0)"] = some .malformedNumber
    ∧ asmErrorOf ["main:", "cpl r0 0x("] = some .malformedNumber
    ∧ asmErrorOf ["x( = 5", "main:", "cpl r0 [x(]"] = some .malformedNumber
    ∧ asmErrorOf ["f(:", "ret", "main:", "cal " ++ braced "f("] = some .malformedNumber
    ∧ asmErrorOf ["main:", "&l(", "cpl r0 &l("] = some .malformedNumber
    ∧ asmErrorOf ["x = 0x("] = some .malformedNumber := ⟨rfl, rfl, rfl, rfl, rfl, rfl⟩

/-- Y12, Y13, Y18 to Y21: declarations out of place or repeated. -/
theorem test_asm_declarations :
    asmErrorOf ["main:", "x = 5"] = some .constantInsideSubroutine
    ∧ asmErrorOf ["&l", "main:", "ret"] = some .labelOutsideSubroutine
    ∧ asmErrorOf ["main:", "&a", "&a"] = some .duplicateLabel
    ∧ asmErrorOf ["main:", "ret", "main:"] = some .duplicateSubroutine
    ∧ asmErrorOf ["x = 1", "x = 2"] = some .duplicateConstant
    ∧ asmErrorOf ["ret"] = some .instructionOutsideSubroutine := ⟨rfl, rfl, rfl, rfl, rfl, rfl⟩

/-! ### Witnesses: for every obligation with hypotheses, states and operands that meet them -/

/-- The plain start state, on which most witnesses stand. -/
def s₀ : State := start [] [] []

theorem witness_NopOnlyAdvances :
    ∃ s : State, s.fault = none ∧ s.pc ≠ haltWord ∧ s.cfg.opcodeMap = OpcodeMap.standard ∧ s.memRead s.pc = 0x0000 :=
  ⟨start [(10, 0xFFFE)] [] [0x0000], rfl, by decide, rfl, by decide⟩

theorem witness_CopCopiesRegister :
    (∃ (dst src : Word) (d r : RegId), dst.toNat = d.val ∧ src.toNat = r.val)
    ∧ (∃ dst src : Word, 16 ≤ dst.toNat ∨ 16 ≤ src.toNat) :=
  ⟨⟨15, 0, 15, 0, rfl, rfl⟩, ⟨0, 16, .inr (by decide)⟩⟩

theorem witness_CplLoadsImmediate : (∃ (dst : Word) (d : RegId), dst.toNat = d.val) ∧ (∃ dst : Word, 16 ≤ dst.toNat) :=
  ⟨⟨10, .pc, rfl⟩, ⟨16, by decide⟩⟩

theorem witness_StrStoresRegister :
    (∃ (addrReg valReg : Word) (a v : RegId), addrReg.toNat = a.val ∧ valReg.toNat = v.val)
    ∧ (∃ addrReg valReg : Word, 16 ≤ addrReg.toNat ∨ 16 ≤ valReg.toNat) :=
  ⟨⟨0, 15, 0, .lc, rfl, rfl⟩, ⟨16, 0, .inl (by decide)⟩⟩

theorem witness_LdrLoadsMemory :
    (∃ (dst addrReg : Word) (d a : RegId), dst.toNat = d.val ∧ addrReg.toNat = a.val)
    ∧ (∃ (s : State) (a : Word), ∀ c ∈ s.mem, c.1 ≠ a.toNat)
    ∧ (∃ dst addrReg : Word, 16 ≤ dst.toNat ∨ 16 ≤ addrReg.toNat) :=
  ⟨⟨1, 1, 1, 1, rfl, rfl⟩, ⟨start [] [(0x0FFF, 0xFFFF)] [], 0xFFFF, by decide⟩, ⟨0, 0xFFFF, .inr (by decide)⟩⟩

theorem witness_AddSubWrapInAccumulator :
    (∃ (src : Word) (r : RegId), src.toNat = r.val) ∧ (∃ src : Word, 16 ≤ src.toNat) :=
  ⟨⟨12, .ac, rfl⟩, ⟨16, by decide⟩⟩

theorem witness_TwcNegatesInPlace :
    (∃ (s t u : State) (reg : Word) (r : RegId), reg.toNat = r.val ∧ exec (.twc reg) s = .next t
      ∧ exec (.twc reg) t = .next u)
    ∧ (∃ reg : Word, 16 ≤ reg.toNat) :=
  ⟨⟨s₀, nextOf (exec (.twc 11) s₀), nextOf (exec (.twc 11) (nextOf (exec (.twc 11) s₀))), 11, .sp, rfl, rfl, rfl⟩,
    ⟨16, by decide⟩⟩

theorem witness_IncDecStepByOne : (∃ (reg : Word) (r : RegId), reg.toNat = r.val) ∧ (∃ reg : Word, 16 ≤ reg.toNat) :=
  ⟨⟨15, .lc, rfl⟩, ⟨16, by decide⟩⟩

theorem witness_MulKeepsLowWord : (∃ (src : Word) (r : RegId), src.toNat = r.val) ∧ (∃ src : Word, 16 ≤ src.toNat) :=
  ⟨⟨0, 0, rfl⟩, ⟨16, by decide⟩⟩

theorem witness_DivIsUnsignedDivision :
    (∃ (s : State) (src : Word) (r : RegId), src.toNat = r.val ∧ s.reg r ≠ 0)
    ∧ (∃ (s : State) (src : Word) (r : RegId), src.toNat = r.val ∧ s.reg r = 0) ∧ (∃ src : Word, 16 ≤ src.toNat) :=
  ⟨⟨start [(1, 0xFFFF)] [] [], 1, 1, rfl, by decide⟩, ⟨s₀, 1, 1, rfl, by decide⟩, ⟨16, by decide⟩⟩

theorem witness_DvcIsSignedDivision :
    (∃ (s : State) (src : Word) (r : RegId), src.toNat = r.val ∧ s.reg r ≠ 0 ∧ s.cfg.dvcRemSign = .magnitude)
    ∧ (∃ (s : State) (src : Word) (r : RegId), src.toNat = r.val ∧ s.reg r ≠ 0 ∧ s.cfg.dvcRemSign = .dividend)
    ∧ (∃ (s : State) (src : Word) (r : RegId), src.toNat = r.val ∧ s.reg r = 0) ∧ (∃ src : Word, 16 ≤ src.toNat) :=
  ⟨⟨start [(12, 0x8000), (1, 0xFFFF)] [] [], 1, 1, rfl, by decide, rfl⟩,
    ⟨startWith cfgDividend [(12, 0x8000), (1, 0xFFFF)] [] [], 1, 1, rfl, by decide, rfl⟩, ⟨s₀, 13, .ex, rfl, by decide⟩,
    ⟨16, by decide⟩⟩

theorem witness_ArithmeticLawsHold :
    (∃ (s t u : State) (src : Word) (r : RegId), src.toNat = r.val ∧ r ≠ .ac ∧ exec (.add src) s = .next t
      ∧ exec (.sub src) t = .next u)
    ∧ (∃ (s : State) (src : Word) (r : RegId), src.toNat = r.val ∧ s.ac.toNat < 32768 ∧ (s.reg r).toNat < 32768) :=
  ⟨⟨s₀, nextOf (exec (.add 11) s₀), nextOf (exec (.sub 11) (nextOf (exec (.add 11) s₀))), 11, .sp, rfl, by decide, rfl,
      rfl⟩,
    ⟨start [(12, 0x7FFF), (1, 0x7FFF)] [] [], 1, 1, rfl, by decide, by decide⟩⟩

theorem witness_LogicActsBitwise : (∃ (src : Word) (r : RegId), src.toNat = r.val) ∧ (∃ src : Word, 16 ≤ src.toNat) :=
  ⟨⟨15, .lc, rfl⟩, ⟨16, by decide⟩⟩

theorem witness_NotComplementsInPlace :
    (∃ (s t : State) (reg : Word) (r : RegId), reg.toNat = r.val ∧ exec (.not reg) s = .next t)
    ∧ (∃ reg : Word, 16 ≤ reg.toNat) :=
  ⟨⟨s₀, nextOf (exec (.not 4) s₀), 4, 4, rfl, rfl⟩, ⟨16, by decide⟩⟩

theorem witness_ShiftsAreLogicalAndUnmasked :
    (∃ (s : State) (reg amountReg : Word) (r k : RegId), reg.toNat = r.val ∧ amountReg.toNat = k.val
      ∧ (s.reg k).toNat = 16)
    ∧ (∃ reg amountReg : Word, 16 ≤ reg.toNat ∨ 16 ≤ amountReg.toNat) :=
  ⟨⟨start [(0, 16)] [] [], 0, 0, 0, 0, rfl, rfl, by decide⟩, ⟨0, 16, .inr (by decide)⟩⟩

theorem witness_PshPushesRegister : (∃ (valReg : Word) (r : RegId), valReg.toNat = r.val) ∧ (∃ w : Word, 16 ≤ w.toNat) :=
  ⟨⟨11, .sp, rfl⟩, ⟨16, by decide⟩⟩

theorem witness_PopPopsRegister :
    (∃ (dst : Word) (d : RegId), dst.toNat = d.val ∧ d ≠ .sp) ∧ (∃ (dst : Word) (d : RegId), dst.toNat = d.val ∧ d = .sp)
    ∧ (∃ dst : Word, 16 ≤ dst.toNat) :=
  ⟨⟨15, .lc, rfl, by decide⟩, ⟨11, .sp, rfl, rfl⟩, ⟨16, by decide⟩⟩

theorem witness_RetPopsProgramCounter :
    ∃ s t : State, s.fault = none ∧ s.memRead s.sp = 0xFFFF ∧ exec .ret s = .next t :=
  ⟨start [] [(0x0FFF, 0xFFFF)] [], nextOf (exec .ret (start [] [(0x0FFF, 0xFFFF)] [])), rfl, by decide, rfl⟩

theorem witness_CmpSetsMarker :
    (∃ (s : State) (r1 r2 : Word) (a b : RegId), r1.toNat = a.val ∧ r2.toNat = b.val ∧ s.reg a = s.reg b)
    ∧ (∃ (s : State) (r1 r2 : Word) (a b : RegId), r1.toNat = a.val ∧ r2.toNat = b.val ∧ s.reg a ≠ s.reg b)
    ∧ (∃ r1 r2 : Word, 16 ≤ r1.toNat ∨ 16 ≤ r2.toNat) :=
  ⟨⟨s₀, 0, 1, 0, 1, rfl, rfl, by decide⟩, ⟨s₀, 0, 11, 0, .sp, rfl, rfl, by decide⟩, ⟨16, 0, .inl (by decide)⟩⟩

theorem witness_ConditionalCallsFollowMarker :
    (∃ s : State, s.bi = s.cfg.biTrue) ∧ (∃ s : State, s.cfg.biTrue ≠ s.cfg.biFalse ∧ s.bi = s.cfg.biFalse)
    ∧ (∃ s : State, s.bi ≠ s.cfg.biTrue ∧ s.bi ≠ s.cfg.biFalse) :=
  ⟨⟨start [(14, 0xB001)] [] [], by decide⟩, ⟨start [(14, 0xB000)] [] [], by decide, by decide⟩, ⟨s₀, by decide, by decide⟩⟩

theorem witness_GtoJumpsThroughRegister : (∃ (reg : Word) (r : RegId), reg.toNat = r.val) ∧ (∃ w : Word, 16 ≤ w.toNat) :=
  ⟨⟨15, .lc, rfl⟩, ⟨16, by decide⟩⟩

theorem witness_ConditionalJumpsFollowMarker :
    (∃ (s : State) (reg : Word) (r : RegId), reg.toNat = r.val ∧ s.bi = s.cfg.biTrue)
    ∧ (∃ (s : State) (reg : Word) (r : RegId), reg.toNat = r.val ∧ s.cfg.biTrue ≠ s.cfg.biFalse ∧ s.bi = s.cfg.biFalse)
    ∧ (∃ (s : State) (reg : Word), reg.toNat < 16 ∧ s.bi ≠ s.cfg.biTrue ∧ s.bi ≠ s.cfg.biFalse)
    ∧ (∃ reg : Word, 16 ≤ reg.toNat) :=
  ⟨⟨start [(14, 0xB001)] [] [], 14, .bi, rfl, by decide⟩, ⟨start [(14, 0xB000)] [] [], 4, 4, rfl, by decide, by decide⟩,
    ⟨s₀, 15, by decide, by decide, by decide⟩, ⟨16, by decide⟩⟩

theorem witness_StackDisciplineHolds :
    (∃ (s t u : State) (w : Word), w.toNat < 16 ∧ exec (.psh w) s = .next t ∧ exec (.pop w) t = .next u)
    ∧ (∃ (s t u : State) (addr : Word), exec (.cal addr) s = .next t ∧ exec .ret t = .next u) :=
  ⟨⟨s₀, nextOf (exec (.psh 11) s₀), nextOf (exec (.pop 11) (nextOf (exec (.psh 11) s₀))), 11, by decide, rfl, rfl⟩,
    ⟨s₀, nextOf (exec (.cal 0x2000) s₀), nextOf (exec .ret (nextOf (exec (.cal 0x2000) s₀))), 0x2000, rfl, rfl⟩⟩

theorem witness_BranchFollowsCompare :
    (∃ (s t : State) (r1 r2 reg : Word) (a b j : RegId), s.cfg.biTrue ≠ s.cfg.biFalse ∧ r1.toNat = a.val
      ∧ r2.toNat = b.val ∧ reg.toNat = j.val ∧ exec (.cmp r1 r2) s = .next t ∧ s.reg a = s.reg b)
    ∧ (∃ (s t : State) (r1 r2 reg : Word) (a b j : RegId), s.cfg.biTrue ≠ s.cfg.biFalse ∧ r1.toNat = a.val
      ∧ r2.toNat = b.val ∧ reg.toNat = j.val ∧ exec (.cmp r1 r2) s = .next t ∧ s.reg a ≠ s.reg b) :=
  ⟨⟨s₀, nextOf (exec (.cmp 0 0) s₀), 0, 0, 14, 0, 0, .bi, by decide, rfl, rfl, rfl, rfl, rfl⟩,
    ⟨s₀, nextOf (exec (.cmp 0 11) s₀), 0, 11, 4, 0, .sp, 4, by decide, rfl, rfl, rfl, rfl, by decide⟩⟩

theorem witness_SthStoresAtHeapOffset :
    (∃ (addrReg valReg : Word) (a v : RegId), addrReg.toNat = a.val ∧ valReg.toNat = v.val)
    ∧ (∃ addrReg valReg : Word, 16 ≤ addrReg.toNat ∨ 16 ≤ valReg.toNat) :=
  ⟨⟨7, 7, 7, 7, rfl, rfl⟩, ⟨0, 16, .inr (by decide)⟩⟩

theorem witness_LdhLoadsAtHeapOffset :
    (∃ (dst addrReg : Word) (d a : RegId), dst.toNat = d.val ∧ addrReg.toNat = a.val)
    ∧ (∃ dst addrReg : Word, 16 ≤ dst.toNat ∨ 16 ≤ addrReg.toNat) :=
  ⟨⟨7, 7, 7, 7, rfl, rfl⟩, ⟨16, 0, .inl (by decide)⟩⟩

theorem witness_VgaAppendsTextRegion : ∃ (s : State) (k : Nat), k < s.cfg.stackMin.toNat :=
  ⟨s₀, 0x07FF, by decide⟩

theorem witness_LoadSeesEarlierStore :
    (∃ (s t u : State) (addrReg valReg dst : Word) (v d : RegId), addrReg.toNat < 16 ∧ valReg.toNat = v.val
      ∧ dst.toNat = d.val ∧ exec (.str addrReg valReg) s = .next t ∧ exec (.ldr dst addrReg) t = .next u)
    ∧ (∃ (s t u : State) (addrReg valReg dst : Word) (v d : RegId), addrReg.toNat < 16 ∧ valReg.toNat = v.val
      ∧ dst.toNat = d.val ∧ exec (.sth addrReg valReg) s = .next t ∧ exec (.ldh dst addrReg) t = .next u) :=
  ⟨⟨s₀, nextOf (exec (.str 0 11) s₀), nextOf (exec (.ldr 0 0) (nextOf (exec (.str 0 11) s₀))), 0, 11, 0, .sp, 0, by decide,
      rfl, rfl, rfl, rfl⟩,
    ⟨s₀, nextOf (exec (.sth 0 11) s₀), nextOf (exec (.ldh 0 0) (nextOf (exec (.sth 0 11) s₀))), 0, 11, 0, .sp, 0,
      by decide, rfl, rfl, rfl, rfl⟩⟩

theorem witness_StepRunsDecodedInstruction :
    ∃ (s : State) (i : Instr) (rest : List Word), s.fault = none ∧ s.pc ≠ haltWord
      ∧ decode s.cfg.opcodeMap (s.wordsFrom s.pc 3) = .ok (i, rest) :=
  ⟨start [] [] [0x0005, 0x0001], .add 1, [0], rfl, by decide, by decide⟩

theorem witness_StepRunsInstructionInMemory :
    ∃ (s : State) (i : Instr), s.fault = none ∧ s.cfg.opcodeMap.valid ∧ s.pc.toNat + i.size ≤ 0xFFFF
      ∧ ∀ k : Nat, k < i.size → (encode s.cfg.opcodeMap i)[k]? = some (s.memRead (s.pc + BitVec.ofNat 16 k)) :=
  ⟨start [(10, 0xFFFC)] [] [0x0002, 12, 3], .cpl 12 3, rfl, OpcodeMap.standard_valid, by decide, by decide⟩

theorem witness_StoppedEngineChangesNothing :
    (∃ s : State, s.fault ≠ none) ∧ (∃ s : State, s.fault = none ∧ s.pc = 0xFFFF) :=
  ⟨⟨s₀.raise .divideByZero 0, by decide⟩, ⟨start [(10, 0xFFFF)] [] [], rfl, by decide⟩⟩

theorem witness_UnknownOpcodeFaults :
    (∃ s : State, s.fault = none ∧ s.pc ≠ haltWord ∧ ∀ o : Opcode, o.number s.cfg.opcodeMap ≠ s.memRead s.pc)
    ∧ (∃ s : State, s.fault = none ∧ s.pc ≠ haltWord ∧ s.cfg.opcodeMap = OpcodeMap.standard
      ∧ 0x0020 ≤ (s.memRead s.pc).toNat) :=
  ⟨⟨start [] [] [0x0020], rfl, by decide, fun o => by cases o <;> decide⟩,
    ⟨start [(10, 0xFFFE)] [] [0x0020], rfl, by decide, rfl, by decide⟩⟩

theorem witness_OperandAtHaltAddressFaults :
    (∃ (s : State) (o : Opcode), s.fault = none ∧ s.pc ≠ haltWord ∧ s.cfg.opcodeMap.valid
      ∧ s.memRead s.pc = o.number s.cfg.opcodeMap ∧ s.pc.toNat + o.count = 0xFFFF)
    ∧ (∃ (s : State) (o : Opcode), s.fault = none ∧ s.pc ≠ haltWord ∧ s.cfg.opcodeMap.valid
      ∧ s.memRead s.pc = o.number s.cfg.opcodeMap ∧ 0xFFFF < s.pc.toNat + o.count) :=
  ⟨⟨start [(10, 0xFFFD)] [] [0x0002], .cpl, rfl, by decide, OpcodeMap.standard_valid, by decide, by decide⟩,
    ⟨start [(10, 0xFFFE)] [] [0x0002], .cpl, rfl, by decide, OpcodeMap.standard_valid, by decide, by decide⟩⟩

theorem witness_ExecuteFaultsArePrecise :
    ∃ (s t : State) (i : Instr) (kind : Fault) (p : Word), s.fault = none ∧ s.pc ≠ haltWord ∧ s.fetch = .ok i
      ∧ step s = .next t ∧ t.fault = some (kind, p) :=
  ⟨start [] [] [0x000B, 0x0001], nextOf (step (start [] [] [0x000B, 0x0001])), .div 1, .divideByZero, 0x1000, rfl,
    by decide, by decide, rfl, by decide⟩

theorem witness_ExecuteFaultsExactlyForTheirCauses :
    (∃ (i : Instr) (s : State), s.fault = none ∧ ¬ i.wellFormed)
    ∧ (∃ (i : Instr) (s : State) (src : Word) (r : RegId), s.fault = none ∧ i = .div src ∧ regId? src = some r
      ∧ s.reg r = 0)
    ∧ (∃ (i : Instr) (s : State) (w : Word), s.fault = none ∧ i = .gtn w ∧ i.wellFormed ∧ s.bi ≠ s.cfg.biTrue
      ∧ s.bi ≠ s.cfg.biFalse) :=
  ⟨⟨.gte 16, s₀, rfl, by decide⟩, ⟨.div 1, s₀, 1, 1, rfl, rfl, rfl, by decide⟩,
    ⟨.gtn 15, s₀, 15, rfl, rfl, by decide, by decide, by decide⟩⟩

theorem witness_ExecWritesOnlyNamedRegisters :
    ∃ (i : Instr) (s t : State) (r : RegId), exec i s = .next t ∧ ¬ i.writesReg r :=
  ⟨.pop 3, s₀, nextOf (exec (.pop 3) s₀), 4, rfl, by unfold Instr.writesReg; decide⟩

theorem witness_ExecStoresOnlyAtItsAddress :
    ∃ (i : Instr) (s t : State) (a : Word), exec i s = .next t ∧ i.storeAddr? s ≠ some a :=
  ⟨.psh 3, s₀, nextOf (exec (.psh 3) s₀), 0x0FFF, rfl, by decide⟩

theorem witness_HeapBaseAndRecordStay :
    (∃ s t : State, step s = .next t) ∧ (∃ s t : State, step s = .next t ∧ s.fault ≠ none) :=
  ⟨⟨s₀, nextOf (step s₀), rfl⟩, ⟨s₀.raise .divideByZero 0, nextOf (step (s₀.raise .divideByZero 0)), rfl, by decide⟩⟩

theorem witness_OnlyVgaExtendsTrace :
    (∃ s t : State, step s = .next t ∧ s.status = .running ∧ s.fetch = .ok .vga) ∧ (∃ s t : State, step s = .next t) :=
  ⟨⟨start [] [] [0x001F], nextOf (step (start [] [] [0x001F])), rfl, by decide, by decide⟩, ⟨s₀, nextOf (step s₀), rfl⟩⟩

theorem witness_LcHoldsLastInstructionAddress :
    ∃ (s t : State) (i : Instr), s.status = .running ∧ s.fetch = .ok i ∧ ¬ i.writesReg .lc ∧ step s = .next t :=
  ⟨start [] [] [0x0015], nextOf (step (start [] [] [0x0015])), .ret, by decide, by decide,
    by unfold Instr.writesReg; decide, rfl⟩

theorem witness_PcAdvancesPastInstruction :
    ∃ (s t : State) (i : Instr), s.status = .running ∧ s.fetch = .ok i ∧ ¬ i.writesReg .pc ∧ step s = .next t :=
  ⟨start [(10, 0xFFFE)] [] [0x0000], nextOf (step (start [(10, 0xFFFE)] [] [0x0000])), .nop, by decide, by decide,
    by simp [Instr.writesReg], rfl⟩

theorem witness_StepKeepsInvariant : ∃ s t : State, s.Inv ∧ step s = .next t :=
  ⟨startWith cfgSmall [] [] [0x001F], nextOf (step (startWith cfgSmall [] [] [0x001F])),
    ⟨by decide, by decide⟩, rfl⟩

theorem witness_LoadPlacesProgram :
    ∃ (c : Config) (p : Program), c.valid ∧ p.valid c ∧ p.subs.length = 2 ∧ c.programOffset.toNat + p.size = 0xFFFF :=
  ⟨{ cfg with stackMax := 0xFFF8, programOffset := 0xFFF9 }, ⟨[7, 8], [[.inc 0, .ret], [.ret]]⟩, by decide, by decide,
    rfl, by decide⟩

theorem witness_LoadRefusesBadPrograms :
    (∃ c : Config, ¬ c.valid)
    ∧ (∃ (c : Config) (p : Program), c.valid ∧ p.subs ≠ [] ∧ c.programOffset.toNat + p.size = 0x10000) :=
  ⟨⟨{ cfg with biFalse := 0xB001 }, by decide⟩,
    ⟨{ cfg with stackMax := 0xFFFD, programOffset := 0xFFFE }, ⟨[1], [[.ret]]⟩, by decide, by decide, by decide⟩⟩

theorem witness_LoadRefusesProgramWithoutEntry : ∃ c : Config, c.valid := ⟨_, Config.standard_valid⟩

theorem witness_ReturnFromMainHalts :
    ∃ (c : Config) (consts : List Word) (subs : List (List Instr)) (is : List Instr) (s : State),
      load c ⟨consts, subs ++ [.ret :: is]⟩ = .ok s := by
  have h : ∃ s, load cfg ⟨[5], [[.inc 0, .ret]] ++ [.ret :: [.nop]]⟩ = .ok s := by
    have hv : ¬ ¬ cfg.valid := by decide
    unfold load
    rw [if_neg hv]
    exact ⟨_, rfl⟩
  obtain ⟨s, hs⟩ := h
  exact ⟨cfg, [5], [[.inc 0, .ret]], [.nop], s, hs⟩

theorem witness_ArgumentsStayInHeap :
    ∃ (s t : State) (writes : List (Word × Word)), s.loadArguments writes = some t ∧ writes.length = 2 :=
  ⟨s₀, (s₀.loadArguments [(0x1031, 1), (0xFFFF, 2)]).getD s₀, [(0x1031, 1), (0xFFFF, 2)], rfl, rfl⟩

theorem witness_DecodeOfEncodeIsIdentity : ∃ m : OpcodeMap, m.valid := ⟨_, OpcodeMap.standard_valid⟩

theorem witness_EncodeOfDecodeIsIdentity :
    ∃ (m : OpcodeMap) (ws rest : List Word) (i : Instr), decode m ws = .ok (i, rest) :=
  ⟨OpcodeMap.standard, [0x0017, 16, 0xFFFF, 9], [9], .cmp 16 0xFFFF, rfl⟩

theorem witness_CodecRoundTrip :
    ∃ (c : Config) (p : Program), c.valid ∧ p.valid c ∧ p.consts.length = 1 ∧ p.subs.length = 2 :=
  ⟨cfg, ⟨[0xFFFF], [[], [.ret]]⟩, by decide, by decide, rfl, rfl⟩

theorem witness_DecodedBinaryIsCanonical :
    ∃ (c : Config) (bytes : List Byte) (p : Program), decodeProgram c bytes = .ok p :=
  ⟨cfg, svcb [0xFF, 0xFF, 0, 1, 0, 0x15], ⟨[], [[.ret]]⟩, rfl⟩

theorem witness_AssembledProgramIsValid : ∃ (c : Config) (ls : List Line) (p : Program), assemble c ls = .ok p :=
  ⟨cfg, source ["x = 1", "main:", "cpl r0 [x]", "&l", "cpl r1 &l"], ⟨[1], [[.cpl 0 0x1000, .cpl 1 0x1004]]⟩, rfl⟩

theorem witness_AssemblerRequiresMainLast : ∃ (c : Config) (ls : List Line) (p : Program), assemble c ls = .ok p :=
  ⟨cfg, source ["f:", "ret", "main:", "ret"], ⟨[], [[.ret], [.ret]]⟩, rfl⟩

theorem witness_AssembledTextIsTheInstruction :
    ∃ (c : Config) (i : Instr), c.programOffset.toNat + i.size = 0xFFFF :=
  ⟨{ cfg with stackMax := 0xFFFB, programOffset := 0xFFFC }, .cop 16 0xFFFF, by decide⟩

end Sys2Proof.Tests
end

section
/-! PROOFS. Data movement (41_data_movement.md): first the facts every family can use (the words of an instruction under
the spec's opcode map, the fetch of an instruction whose words memory holds, the check of register operands), then what
the five instructions answer, then the obligations. -/

namespace Sys2Proof

/-- Under the spec's opcode map the opcode word is the row of the Instruction Table (30_encoding.md R73). -/
theorem encode_standard (i : Instr) :
    encode OpcodeMap.standard i = BitVec.ofNat 16 i.opcode.index.val :: i.operands := by
  rw [encode, OpcodeMap.number_standard]

/-- Decoding what begins with an instruction's words gives that instruction and what follows it. -/
theorem decode_encode_append {m : OpcodeMap} (hm : m.valid) (i : Instr) (rest : List Word) :
    decode m (encode m i ++ rest) = .ok (i, rest) := by
  have hlen : ¬ (i.operands ++ rest).length < i.opcode.count := by simp [Instr.length_operands]
  simp only [encode, List.cons_append, decode, Opcode.ofNumber?_number hm, if_neg hlen, Instr.instr_operands]
  rw [← Instr.length_operands, List.drop_left]

end Sys2Proof

namespace Sys2Proof.Machine

/-! ### The fetch -/

theorem wordsFrom_succ (s : State) {p : Word} (hp : p ≠ haltWord) (n : Nat) :
    s.wordsFrom p (n + 1) = s.memRead p :: s.wordsFrom (p + 1) n := by
  simp [State.wordsFrom, hp]

theorem fetch_of_wordsFrom {s : State} {i : Instr} {rest : List Word} (hm : s.cfg.opcodeMap.valid)
    (h : s.wordsFrom s.pc 3 = encode s.cfg.opcodeMap i ++ rest) : s.fetch = .ok i := by
  rw [State.fetch, h, decode_encode_append hm]

/-- Under the spec's opcode map the word 0x0000 is fetched as `nop`, at every address but 0xFFFF (R120). -/
theorem fetch_nop {s : State} (hpc : s.pc ≠ haltWord) (hmap : s.cfg.opcodeMap = OpcodeMap.standard)
    (hword : s.memRead s.pc = 0x0000) : s.fetch = .ok .nop := by
  apply fetch_of_wordsFrom (rest := s.wordsFrom (s.pc + 1) 2)
  · exact hmap ▸ OpcodeMap.standard_valid
  · rw [wordsFrom_succ s hpc, hword, hmap, encode_standard]
    rfl

/-! ### The check of register operands (30_encoding.md R77; 60_exceptions.md R243) -/

theorem withReg_withReg_of_names {w w' : Word} {r r' : RegId} (h : w.toNat = r.val) (h' : w'.toNat = r'.val)
    (s : State) (go : RegId → RegId → Result) : (withReg w s fun a => withReg w' s (go a)) = go r r' := by
  rw [withReg_of_names h, withReg_of_names h']

/-- Of two register operands the second is checked before any effect too. -/
theorem withReg_withReg_of_ge {w w' : Word} (h : 16 ≤ w.toNat ∨ 16 ≤ w'.toNat) (s : State)
    (go : RegId → RegId → Result) :
    (withReg w s fun a => withReg w' s (go a)) = .next (s.raiseHere .invalidRegister) := by
  obtain ⟨r, hr, hgo⟩ | ⟨-, hraise⟩ := withReg_cases w s fun a => withReg w' s (go a)
  · have hw' : 16 ≤ w'.toNat := h.resolve_left (by omega)
    rw [hgo, withReg_of_ge hw']
  · exact hraise

/-- An instruction with a register operand above 15 raises `InvalidRegister`, whatever else it would do. -/
theorem exec_of_invalid_operand {i : Instr} (h : ∃ w ∈ i.regOperands, 16 ≤ w.toNat) (s : State) :
    exec i s = .next (s.raiseHere .invalidRegister) := by
  cases i with
  | nop | ret | cal _ | cle _ | cln _ | vga => simp [Instr.regOperands] at h
  | cpl w _ | add w | sub w | twc w | inc w | dec w | mul w | div w | dvc w | xor w | and w | orr w | not w
  | psh w | pop w | gto w | gte w | gtn w => exact withReg_of_ge (by simpa [Instr.regOperands] using h) s _
  | cop w w' | str w w' | ldr w w' | shr w w' | shl w w' | cmp w w' | sth w w' | ldh w w' =>
    exact withReg_withReg_of_ge (by simpa [Instr.regOperands] using h) s _

/-- The fault clause of the statements about one instruction. -/
theorem faultedAt_of_invalid_operand {i : Instr} (h : ∃ w ∈ i.regOperands, 16 ≤ w.toNat) (s : State) :
    ∃ t, exec i s = .next t ∧ FaultedAt .invalidRegister s.lc s t :=
  ⟨_, exec_of_invalid_operand h s, faultedAt_raiseHere s _⟩

/-! ### What the five instructions answer -/

theorem exec_nop (s : State) : exec .nop s = .next s := rfl

theorem exec_cop {dst src : Word} {d r : RegId} (hd : dst.toNat = d.val) (hr : src.toNat = r.val) (s : State) :
    exec (.cop dst src) s = .next (s.setReg d (s.reg r)) :=
  withReg_withReg_of_names hd hr s _

theorem exec_cpl {dst : Word} {d : RegId} (hd : dst.toNat = d.val) (imm : Word) (s : State) :
    exec (.cpl dst imm) s = .next (s.setReg d imm) :=
  withReg_of_names hd s _

theorem exec_str {addrReg valReg : Word} {a v : RegId} (ha : addrReg.toNat = a.val) (hv : valReg.toNat = v.val)
    (s : State) : exec (.str addrReg valReg) s = .next (s.memWrite (s.reg a) (s.reg v)) :=
  withReg_withReg_of_names ha hv s _

theorem exec_ldr {dst addrReg : Word} {d a : RegId} (hd : dst.toNat = d.val) (ha : addrReg.toNat = a.val)
    (s : State) : exec (.ldr dst addrReg) s = .next (s.setReg d (s.memRead (s.reg a))) :=
  withReg_withReg_of_names hd ha s _

/-! ### The obligations -/

/-- Settles O1: `nop` is fetched from the word 0x0000, and its execute phase keeps the state the step has advanced. -/
theorem nopOnlyAdvances : Obligations.NopOnlyAdvances := by
  refine ⟨encode_standard .nop, exec_nop, fun s hfault hpc hmap hword => ?_⟩
  have hstep : step s = .next (s.advance 1) :=
    step_of_fetch (status_running_iff.2 ⟨hfault, hpc⟩) (fetch_nop hpc hmap hword)
  obtain ⟨hlc, hpc', -⟩ := advance_spec s 1
  exact ⟨s.advance 1, hstep, hlc, hpc', frame_advance s 1⟩

/-- Settles O2: the source is read before the destination is written, so `dst` and `src` may be one register. -/
theorem copCopiesRegister : Obligations.CopCopiesRegister := by
  refine ⟨fun dst src => encode_standard (.cop dst src), fun s dst src d r hd hr => ?_, fun s dst src h => ?_⟩
  · exact ⟨_, exec_cop hd hr s, State.reg_setReg_self .., frame_setReg ..⟩
  · exact faultedAt_of_invalid_operand (by simpa [Instr.regOperands] using h) s

/-- Settles O3: the immediate needs no check, so only `dst` can fault. -/
theorem cplLoadsImmediate : Obligations.CplLoadsImmediate := by
  refine ⟨fun dst imm => encode_standard (.cpl dst imm), fun s dst imm d hd => ?_, fun s dst imm h => ?_⟩
  · exact ⟨_, exec_cpl hd imm s, State.reg_setReg_self .., frame_setReg ..⟩
  · exact faultedAt_of_invalid_operand (by simpa [Instr.regOperands] using h) s

/-- Settles O4: the address is read before the store, so the frame names the word at `s.reg a`. -/
theorem strStoresRegister : Obligations.StrStoresRegister := by
  refine ⟨fun addrReg valReg => encode_standard (.str addrReg valReg), fun s addrReg valReg a v ha hv => ?_,
    fun s addrReg valReg h => ?_⟩
  · have hread : (s.memWrite (s.reg a) (s.reg v)).memRead (s.reg a) = s.reg v := by simp
    exact ⟨_, exec_str ha hv s, hread, frame_memWrite ..⟩
  · exact faultedAt_of_invalid_operand (by simpa [Instr.regOperands] using h) s

/-- Settles O5: an address no cell of memory lists is one never written, and reads as `MEM_DEFAULT`. -/
theorem ldrLoadsMemory : Obligations.LdrLoadsMemory := by
  refine ⟨fun dst addrReg => encode_standard (.ldr dst addrReg), fun s dst addrReg d a hd ha => ?_,
    fun s a hnone => Memory.read_of_forall_ne hnone, fun s dst addrReg h => ?_⟩
  · exact ⟨_, exec_ldr hd ha s, State.reg_setReg_self .., frame_setReg ..⟩
  · exact faultedAt_of_invalid_operand (by simpa [Instr.regOperands] using h) s

end Sys2Proof.Machine
end

section
/-! PROOFS. Arithmetic on `add`, `sub`, `twc`, `inc` and `dec` (42_arithmetic.md R130 to R134): two's-complement negation,
what the two shared operations answer for a register operand that names a register, then what the five instructions
answer, then the obligations. -/

namespace Sys2Proof.Machine

/-! ### Two's-complement negation -/

/-- `~v + 1` is negation modulo 2^16 (R132). -/
theorem twc_eq_neg (v : Word) : twc v = -v := (BitVec.neg_eq_not_add v).symm

theorem twc_twc (v : Word) : twc (twc v) = v := by rw [twc_eq_neg, twc_eq_neg, BitVec.neg_neg]

theorem toNat_twc (v : Word) : (twc v).toNat = (65536 - v.toNat) % 65536 := by rw [twc_eq_neg, BitVec.toNat_neg]

/-- Adding the negation, as `sub` does (R131), is subtraction modulo 2^16. -/
theorem toNat_add_twc (c v : Word) : (c + twc v).toNat = (c.toNat + 65536 - v.toNat) % 65536 := by
  have hv := v.isLt
  rw [BitVec.toNat_add, toNat_twc]
  omega

/-! ### The shared operations -/

theorem accumulate_of_names {src : Word} {r : RegId} (h : src.toNat = r.val) (f : Word → Word → Word) (s : State) :
    accumulate f src s = .next (s.setReg .ac (f s.ac (s.reg r))) :=
  withReg_of_names h s _

theorem inPlace_of_names {reg : Word} {r : RegId} (h : reg.toNat = r.val) (f : Word → Word) (s : State) :
    inPlace f reg s = .next (s.setReg r (f (s.reg r))) :=
  withReg_of_names h s _

/-! ### What the five instructions answer -/

theorem exec_add {src : Word} {r : RegId} (h : src.toNat = r.val) (s : State) :
    exec (.add src) s = .next (s.setReg .ac (s.ac + s.reg r)) :=
  accumulate_of_names h (fun c v => c + v) s

theorem exec_sub {src : Word} {r : RegId} (h : src.toNat = r.val) (s : State) :
    exec (.sub src) s = .next (s.setReg .ac (s.ac + twc (s.reg r))) :=
  accumulate_of_names h (fun c v => c + twc v) s

theorem exec_twc {reg : Word} {r : RegId} (h : reg.toNat = r.val) (s : State) :
    exec (.twc reg) s = .next (s.setReg r (twc (s.reg r))) :=
  inPlace_of_names h twc s

theorem exec_inc {reg : Word} {r : RegId} (h : reg.toNat = r.val) (s : State) :
    exec (.inc reg) s = .next (s.setReg r (s.reg r + 1)) :=
  inPlace_of_names h (fun v => v + 1) s

theorem exec_dec {reg : Word} {r : RegId} (h : reg.toNat = r.val) (s : State) :
    exec (.dec reg) s = .next (s.setReg r (s.reg r + twc 1)) :=
  inPlace_of_names h (fun v => v + twc 1) s

/-! ### The obligations -/

/-- Settles O7: the second execute phase negates the value the first one wrote, and negation is an involution. -/
theorem twcNegatesInPlace : Obligations.TwcNegatesInPlace := by
  refine ⟨fun reg => encode_standard (.twc reg), fun s reg r hr => ?_, fun s t u reg r hr ht hu => ?_,
    fun s reg h => ?_⟩
  · refine ⟨_, exec_twc hr s, ?_, frame_setReg ..⟩
    rw [State.reg_setReg_self, toNat_twc]
  · obtain rfl : s.setReg r (twc (s.reg r)) = t := Host.Outcome.next.inj ((exec_twc hr s).symm.trans ht)
    obtain rfl := Host.Outcome.next.inj ((exec_twc hr _).symm.trans hu)
    rw [State.reg_setReg_self, State.reg_setReg_self, twc_twc]
  · exact faultedAt_of_invalid_operand ⟨_, List.mem_singleton_self _, h⟩ s

/-- Settles O6: both read `ac` and the source before the write, so `src` may name `ac` itself. -/
theorem addSubWrapInAccumulator : Obligations.AddSubWrapInAccumulator := by
  refine ⟨fun src => ⟨encode_standard (.add src), encode_standard (.sub src)⟩, fun s src r hr => ?_,
    fun s src r hr => ?_, fun s src h => ⟨?_, ?_⟩⟩
  · refine ⟨_, exec_add hr s, ?_, frame_setReg ..⟩
    rw [State.ac, State.reg_setReg_self, BitVec.toNat_add]
  · refine ⟨_, exec_sub hr s, ?_, frame_setReg ..⟩
    rw [State.ac, State.reg_setReg_self, toNat_add_twc]
  · exact faultedAt_of_invalid_operand ⟨_, List.mem_singleton_self _, h⟩ s
  · exact faultedAt_of_invalid_operand ⟨_, List.mem_singleton_self _, h⟩ s

/-- Settles O8: `dec` adds the negation of 1, which is 65535. -/
theorem incDecStepByOne : Obligations.IncDecStepByOne := by
  refine ⟨fun reg => ⟨encode_standard (.inc reg), encode_standard (.dec reg)⟩, fun s reg r hr => ?_,
    fun s reg r hr => ?_, fun s reg h => ⟨?_, ?_⟩⟩
  · refine ⟨_, exec_inc hr s, ?_, frame_setReg ..⟩
    rw [State.reg_setReg_self, BitVec.toNat_add]
    rfl
  · refine ⟨_, exec_dec hr s, ?_, frame_setReg ..⟩
    rw [State.reg_setReg_self, toNat_add_twc]
    rfl
  · exact faultedAt_of_invalid_operand ⟨_, List.mem_singleton_self _, h⟩ s
  · exact faultedAt_of_invalid_operand ⟨_, List.mem_singleton_self _, h⟩ s

end Sys2Proof.Machine
end

section
/-! PROOFS. Logic on `xor`, `and`, `orr` and `not` (43_logic_shift.md R140 to R143): an accumulator operation that works
bit by bit, then two writes of one register, then the obligations. -/

namespace Sys2Proof.Machine

/-! ### The accumulator, bit by bit -/

/-- A word operation that computes each bit by `op` does so in the accumulator, which is all it changes; `src` may name
`ac` itself, for both words are read before the write. -/
theorem accumulate_bitwise {f : Word → Word → Word} {op : Bool → Bool → Bool}
    (hf : ∀ {n c v}, (f c v).getLsbD n = op (c.getLsbD n) (v.getLsbD n))
    (s : State) {src : Word} {r : RegId} (h : src.toNat = r.val) :
    ∃ t, accumulate f src s = .next t ∧ Frame [.ac] [] s t
      ∧ ∀ n, t.ac.getLsbD n = op (s.ac.getLsbD n) ((s.reg r).getLsbD n) := by
  refine ⟨_, accumulate_of_names h f s, frame_setReg .., fun n => ?_⟩
  rw [State.ac, State.reg_setReg_self, hf]

/-! ### `not`, and a second write of the register it wrote -/

theorem exec_not {reg : Word} {r : RegId} (h : reg.toNat = r.val) (s : State) :
    exec (.not reg) s = .next (s.setReg r (~~~s.reg r)) :=
  inPlace_of_names h (fun v => ~~~v) s

/-- Of two writes of one register the second alone counts. -/
theorem State.setReg_setReg_self (s : State) (r : RegId) (v w : Word) : (s.setReg r v).setReg r w = s.setReg r w := by
  simp [State.setReg]

/-! ### The obligations -/

/-- Settles O13: each of the three is an accumulator operation that works bit by bit. -/
theorem logicActsBitwise : Obligations.LogicActsBitwise := by
  refine ⟨fun src => ⟨encode_standard (.xor src), encode_standard (.and src), encode_standard (.orr src)⟩,
    fun s src r hr => ?_, fun s src r hr => ?_, fun s src r hr => ?_, fun s src h => ⟨?_, ?_, ?_⟩⟩
  · exact accumulate_bitwise (BitVec.getLsbD_xor ..) s hr
  · exact accumulate_bitwise (BitVec.getLsbD_and ..) s hr
  · exact accumulate_bitwise (BitVec.getLsbD_or ..) s hr
  · exact faultedAt_of_invalid_operand ⟨_, List.mem_singleton_self _, h⟩ s
  · exact faultedAt_of_invalid_operand ⟨_, List.mem_singleton_self _, h⟩ s
  · exact faultedAt_of_invalid_operand ⟨_, List.mem_singleton_self _, h⟩ s

/-- Settles O14: `inc` adds 1 to the complement `not` wrote, which is how `twc` negates (R132). -/
theorem notComplementsInPlace : Obligations.NotComplementsInPlace := by
  refine ⟨fun reg => encode_standard (.not reg), fun s reg r hr => ?_, fun s t reg r hr ht => ?_, fun s reg h => ?_⟩
  · refine ⟨_, exec_not hr s, frame_setReg .., fun n hn => ?_⟩
    rw [State.reg_setReg_self, BitVec.getLsbD_not, decide_eq_true hn, Bool.true_and]
  · obtain rfl : s.setReg r (~~~s.reg r) = t := Host.Outcome.next.inj ((exec_not hr s).symm.trans ht)
    rw [exec_inc hr, State.reg_setReg_self, State.setReg_setReg_self, exec_twc hr, twc]
  · exact faultedAt_of_invalid_operand ⟨_, List.mem_singleton_self _, h⟩ s

end Sys2Proof.Machine
end

section
/-! PROOFS. Stack and control transfer on `ret`, `cal`, `cmp` and `gto` (44_stack_control.md R154 to R156, R159): the
halted status and the marker `cmp` takes, then what the four instructions answer, then the obligations. -/

namespace Sys2Proof.Machine

/-! ### The halted status and the marker -/

/-- Without a fault record, the halt sentinel in `pc` is what a state reports as halted (40_execution_cycle.md R101). -/
theorem status_halted_of_pc {s : State} (hfault : s.fault = none) (hpc : s.pc = haltWord) : s.status = .halted := by
  rw [State.status, hfault, if_neg (by simp), if_pos hpc]

theorem marker_beq (s : State) (u w : Word) : s.marker (u == w) = if u = w then s.cfg.biTrue else s.cfg.biFalse := by
  simp only [State.marker, beq_iff_eq]

/-! ### What the four instructions answer -/

/-- The popped word is read before `sp` is incremented. -/
theorem exec_ret (s : State) :
    exec .ret s = .next ((s.setReg .sp (s.sp + 1)).setReg .pc (s.memRead s.sp)) := rfl

theorem exec_cal (addr : Word) (s : State) : exec (.cal addr) s = .next (s.call addr) := rfl

theorem exec_cmp {r1 r2 : Word} {a b : RegId} (ha : r1.toNat = a.val) (hb : r2.toNat = b.val) (s : State) :
    exec (.cmp r1 r2) s = .next (s.setReg .bi (s.marker (s.reg a == s.reg b))) :=
  withReg_withReg_of_names ha hb s _

theorem exec_gto {reg : Word} {r : RegId} (h : reg.toNat = r.val) (s : State) :
    exec (.gto reg) s = .next (s.setReg .pc (s.reg r)) :=
  withReg_of_names h s _

/-! ### The obligations -/

/-- Settles O18: `ret` keeps the fault record, so a popped 0xFFFF leaves the engine halted and not faulted. -/
theorem retPopsProgramCounter : Obligations.RetPopsProgramCounter := by
  refine ⟨encode_standard .ret, fun s => ?_, fun s t hfault hword ht => ?_⟩
  · have hsp : ((s.setReg .sp (s.sp + 1)).setReg .pc (s.memRead s.sp)).sp = s.sp + 1 := by
      rw [State.sp, State.reg_setReg_of_ne _ RegId.sp_ne_pc, State.reg_setReg_self]
    exact ⟨_, exec_ret s, State.reg_setReg_self .., hsp, frame_setReg_setReg ..⟩
  · obtain rfl := Host.Outcome.next.inj ((exec_ret s).symm.trans ht)
    exact status_halted_of_pc hfault ((State.reg_setReg_self ..).trans hword)

/-- Settles O19: in the advanced state `pc` is the next instruction's address, and `cal` pushes it before it jumps. -/
theorem calPushesAndJumps : Obligations.CalPushesAndJumps := by
  refine ⟨fun addr => encode_standard (.cal addr), fun s addr => ?_⟩
  obtain ⟨hpc, hsp, -, hmem, -⟩ := call_spec s addr
  have hpushed : (s.call addr).memRead (s.sp - 1) = s.pc := by rw [hmem, if_pos rfl]
  exact ⟨_, exec_cal addr s, hpc, hsp, hpushed, frame_call s addr⟩

/-- Settles O20: both registers are read before `bi` is written, so either operand may name `bi` itself. -/
theorem cmpSetsMarker : Obligations.CmpSetsMarker := by
  refine ⟨fun r1 r2 => encode_standard (.cmp r1 r2), fun s r1 r2 a b ha hb => ?_, fun s r1 r2 h => ?_⟩
  · exact ⟨_, exec_cmp ha hb s, (State.reg_setReg_self ..).trans (marker_beq s _ _), frame_setReg ..⟩
  · exact faultedAt_of_invalid_operand (by simpa [Instr.regOperands] using h) s

/-- Settles O22: a jump writes `pc` and pushes nothing; the register may be `pc` or `lc`. -/
theorem gtoJumpsThroughRegister : Obligations.GtoJumpsThroughRegister := by
  refine ⟨fun reg => encode_standard (.gto reg), fun s reg r hr => ?_, fun s reg h => ?_⟩
  · exact ⟨_, exec_gto hr s, State.reg_setReg_self .., frame_setReg ..⟩
  · exact faultedAt_of_invalid_operand ⟨_, List.mem_singleton_self _, h⟩ s

end Sys2Proof.Machine
end

section
/-! PROOFS. Heap-relative access on `ldh` (45_heap_video.md R171): what the instruction answers, then the obligation. -/

namespace Sys2Proof.Machine

/-- The address is read before `dst` is written, so `dst` and `addrReg` may be one register. -/
theorem exec_ldh {dst addrReg : Word} {d a : RegId} (hd : dst.toNat = d.val) (ha : addrReg.toNat = a.val)
    (s : State) : exec (.ldh dst addrReg) s = .next (s.setReg d (s.memRead (s.heapAddr (s.reg a)))) :=
  withReg_withReg_of_names hd ha s _

/-- Settles O27: the address is a sum of words, which wraps modulo 2^16. -/
theorem ldhLoadsAtHeapOffset : Obligations.LdhLoadsAtHeapOffset := by
  refine ⟨fun dst addrReg => encode_standard (.ldh dst addrReg), fun s dst addrReg d a hd ha => ?_,
    fun s dst addrReg h => ?_⟩
  · have hloaded : (s.setReg d (s.memRead (s.heapAddr (s.reg a)))).reg d = s.memRead (s.reg a + s.heapOffset) := by
      rw [State.reg_setReg_self, State.heapAddr]
    exact ⟨_, exec_ldh hd ha s, hloaded, frame_setReg ..⟩
  · exact faultedAt_of_invalid_operand (by simpa [Instr.regOperands] using h) s

end Sys2Proof.Machine
end

section
/-! PROOFS. The decoder and the codec (30_encoding.md; 46_codec.md): the decoder's converse, then for each section of the
word stream that decoding what the encoder writes gives it back and that whatever decodes is what the encoder writes, then
the obligations. -/

namespace Sys2Proof

/-- What decodes begins with the words of the instruction it decodes to, and leaves what follows them. -/
theorem eq_encode_append_of_decode {m : OpcodeMap} {ws rest : List Word} {i : Instr}
    (h : decode m ws = .ok (i, rest)) : ws = encode m i ++ rest := by
  cases ws with
  | nil => cases h
  | cons w ws =>
    rw [decode] at h
    split at h
    · cases h
    next o ho =>
      split at h
      · cases h
      next hlen =>
        obtain ⟨rfl, rfl⟩ := Prod.mk.inj (Except.ok.inj h)
        rw [encode, Opcode.opcode_instr, Opcode.number_of_ofNumber? ho, Opcode.operands_instr _ _ (Nat.le_of_not_lt hlen),
          List.cons_append, List.take_append_drop]

end Sys2Proof

namespace Sys2Proof.Machine

/-- A word other than the halt sentinel has a successor that does not wrap. -/
theorem toNat_add_one {a : Word} (h : a ≠ haltWord) : (a + 1).toNat = a.toNat + 1 := by
  have : a.toNat ≠ 0xFFFF := fun h' => h (BitVec.eq_of_toNat_eq h')
  bv_omega

theorem ne_haltWord_of_lt {a : Word} (h : a.toNat < 0xFFFF) : a ≠ haltWord := by
  rintro rfl
  exact absurd h (by decide)

/-! ### The constant section (46_codec.md R183, R186) -/

theorem decodeConsts_haltWord (next i : Nat) (rest : List Word) :
    decodeConsts next i (haltWord :: rest) = .ok ([], i + 1, rest) := by
  cases rest <;> rw [decodeConsts, if_pos rfl]

theorem decodeConsts_constPairs (cs rest : List Word) : ∀ (a : Word) (i : Nat), a.toNat + cs.length ≤ 0xFFFF →
    ∃ j, decodeConsts a.toNat i (constPairs a cs ++ haltWord :: rest) = .ok (cs, j, rest) := by
  induction cs with
  | nil => exact fun a i _ => ⟨_, decodeConsts_haltWord ..⟩
  | cons c cs ih =>
    intro a i h
    rw [List.length_cons] at h
    have ha : a ≠ haltWord := ne_haltWord_of_lt (by omega)
    have hnext := toNat_add_one ha
    obtain ⟨j, hj⟩ := ih (a + 1) (i + 2) (by omega)
    refine ⟨j, ?_⟩
    rw [constPairs, List.cons_append, List.cons_append, decodeConsts, if_neg ha, if_neg (not_not.2 rfl), ← hnext, hj]

/-- Constants are read from (address, value) pairs in address order, up to the sentinel. -/
theorem eq_constPairs_of_decodeConsts (next i : Nat) (ws : List Word) : ∀ (a : Word) (cs rest : List Word) (j : Nat),
    a.toNat = next → decodeConsts next i ws = .ok (cs, j, rest) → ws = constPairs a cs ++ haltWord :: rest := by
  induction next, i, ws using decodeConsts.induct with
  | case1 => intro _ _ _ _ _ h; cases h
  | case2 | case4 =>
    rintro a cs rest j - h
    simp only [decodeConsts, if_true] at h
    cases h
    rfl
  | case3 next i w hw =>
    rintro a cs rest j - h
    simp [decodeConsts, hw] at h
  | case5 next i w v ws hw hne =>
    rintro a cs rest j - h
    simp [decodeConsts, hw, hne] at h
  | case6 next i w v ws hw heq e he =>
    rintro a cs rest j - h
    simp [decodeConsts, hw, heq, he] at h
  | case7 next i w v ws hw heq cs' r hr ih =>
    intro a cs rest j ha h
    simp only [decodeConsts, hw, heq, hr, if_false] at h
    cases h
    obtain rfl : a = w := BitVec.eq_of_toNat_eq (ha.trans (not_not.1 heq).symm)
    rw [ih (a + 1) cs' rest j (ha ▸ toNat_add_one hw) hr]
    rfl

/-! ### One subroutine (46_codec.md R187) -/

theorem subWords_cons (m : OpcodeMap) (i : Instr) (is : List Instr) :
    subWords m (i :: is) = encode m i ++ subWords m is := List.flatMap_cons

theorem splitSub_subWords {m : OpcodeMap} (hm : m.valid) (is : List Instr) : ∀ n k : Nat, is.length ≤ n →
    splitSub m n k (subWords m is) = .ok is := by
  induction is with
  | nil => intro n k _; cases n <;> rfl
  | cons i is ih =>
    intro n k hn
    obtain ⟨n, rfl⟩ := Nat.exists_eq_succ_of_ne_zero (Nat.ne_of_gt (Nat.lt_of_lt_of_le (Nat.succ_pos _) hn))
    have hdecode := decode_encode_append hm i (subWords m is)
    rw [subWords_cons]
    rw [encode, List.cons_append] at hdecode ⊢
    rw [splitSub, hdecode]
    simp only [ih n _ (Nat.le_of_succ_le_succ hn)]

theorem eq_subWords_of_splitSub {m : OpcodeMap} : ∀ (n k : Nat) (ws : List Word) (is : List Instr),
    splitSub m n k ws = .ok is → ws = subWords m is := by
  intro n
  induction n with
  | zero =>
    intro k ws is h
    cases ws <;> cases h
    rfl
  | succ n ih =>
    intro k ws is h
    cases ws with
    | nil => cases h; rfl
    | cons w ws =>
      rw [splitSub] at h
      split at h
      · cases h
      · cases h
      next i rest hdecode =>
        split at h
        · cases h
        next is' hsplit =>
          cases h
          rw [eq_encode_append_of_decode hdecode, subWords_cons, ih _ _ _ hsplit]

/-! ### The subroutines (46_codec.md R185) -/

theorem toNat_ofNat_of_lt {n : Nat} (h : n < 0xFFFF) : (BitVec.ofNat 16 n).toNat = n :=
  (BitVec.toNat_ofNat ..).trans (Nat.mod_eq_of_lt (Nat.lt_succ_of_lt h))

theorem length_le_subSize (is : List Instr) : is.length ≤ subSize is := by
  rw [subSize, ← List.length_map Instr.size]
  exact List.length_le_sum_of_one_le _ (List.forall_mem_map.2 fun i _ => i.size_pos)

theorem decodeSubs_subSections {m : OpcodeMap} (hm : m.valid) (subs : List (List Instr)) : ∀ n k : Nat,
    subs.length < n → (∀ is ∈ subs, subSize is < 0xFFFF) →
    decodeSubs m n k (subs.flatMap (subSection m) ++ [haltWord]) = .ok subs := by
  induction subs with
  | nil =>
    intro n k hn _
    obtain ⟨n, rfl⟩ := Nat.exists_eq_succ_of_ne_zero (Nat.ne_of_gt hn)
    simp [decodeSubs]
  | cons is subs ih =>
    intro n k hn hsize
    obtain ⟨n, rfl⟩ := Nat.exists_eq_succ_of_ne_zero (Nat.ne_of_gt (Nat.zero_lt_of_lt hn))
    have hlt : subSize is < 0xFFFF := hsize is (List.mem_cons_self ..)
    have hlen : (BitVec.ofNat 16 (subSize is)).toNat = (subWords m is).length := by
      rw [toNat_ofNat_of_lt hlt, length_subWords]
    have hne : BitVec.ofNat 16 (subSize is) ≠ haltWord := ne_haltWord_of_lt (by rwa [toNat_ofNat_of_lt hlt])
    have hsplit := splitSub_subWords hm is (subWords m is).length (k + 1) (length_subWords m is ▸ length_le_subSize is)
    have hrest := ih n (k + 1 + (subWords m is).length) (Nat.lt_of_succ_lt_succ hn)
      fun is' h => hsize is' (List.mem_cons_of_mem _ h)
    have hfits : ¬ (subWords m is ++ (subs.flatMap (subSection m) ++ [haltWord])).length < (subWords m is).length := by
      simp
    rw [List.flatMap_cons, subSection, List.cons_append, List.cons_append, List.append_assoc, decodeSubs, if_neg hne, hlen,
      if_neg hfits, List.take_left, List.drop_left, hsplit]
    simp only [hrest]

/-- The subroutines' sections end at the end sentinel, or at the end of the buffer without one. -/
theorem eq_subSections_of_decodeSubs {m : OpcodeMap} : ∀ (n k : Nat) (ws : List Word) (subs : List (List Instr)),
    decodeSubs m n k ws = .ok subs →
    subs.flatMap (subSection m) = ws ∨ subs.flatMap (subSection m) ++ [haltWord] = ws := by
  intro n
  induction n with
  | zero =>
    intro k ws subs h
    cases ws <;> cases h
    exact .inl rfl
  | succ n ih =>
    intro k ws subs h
    cases ws with
    | nil => cases h; exact .inl rfl
    | cons len rest =>
      rw [decodeSubs] at h
      split at h
      next hlen =>
        split at h
        next hrest => cases h; subst hlen hrest; exact .inr rfl
        · cases h
      · split at h
        · cases h
        next hfits =>
          split at h
          · cases h
          next is hsplit =>
            split at h
            · cases h
            next subs' hsubs =>
              cases h
              have htake := eq_subWords_of_splitSub _ _ _ _ hsplit
              have hlen : BitVec.ofNat 16 (subSize is) = len := by
                rw [← length_subWords m, ← htake, List.length_take_of_le (Nat.le_of_not_lt hfits),
                  BitVec.ofNat_toNat, BitVec.setWidth_eq]
              have hwords (tail : List Word) (htail : tail = rest.drop len.toNat) :
                  subSection m is ++ tail = len :: rest := by
                rw [subSection, hlen, ← htake, htail, List.cons_append, List.take_append_drop]
              rw [List.flatMap_cons, List.append_assoc]
              exact (ih _ _ _ hsubs).imp (hwords _) (hwords _)

/-! ### The whole program (46_codec.md R184, R185, R188) -/

theorem subSize_le_size {p : Program} {is : List Instr} (h : is ∈ p.subs) : subSize is ≤ p.size :=
  (List.le_sum_of_mem (List.mem_map_of_mem h)).trans (Nat.le_add_left ..)

theorem checkProgram_of_valid {c : Config} {p : Program} (h : p.valid c) : checkProgram c p = .ok p := by
  rw [checkProgram, if_neg h.1, if_neg (Nat.not_lt.2 h.2)]

theorem valid_of_checkProgram {c : Config} {p q : Program} (h : checkProgram c p = .ok q) : q = p ∧ p.valid c := by
  rw [checkProgram] at h
  split at h
  · cases h
  next hsubs =>
    split at h
    · cases h
    next hsize => cases h; exact ⟨rfl, hsubs, Nat.not_lt.1 hsize⟩

theorem length_le_length_subSections (m : OpcodeMap) (subs : List (List Instr)) :
    subs.length ≤ (subs.flatMap (subSection m)).length := by
  induction subs with
  | nil => exact Nat.le_refl 0
  | cons is subs ih => simp only [List.flatMap_cons, List.length_append, subSection, List.length_cons]; omega

theorem decodeStream_streamWords {c : Config} {p : Program} (hc : c.valid) (hp : p.valid c) :
    decodeStream c (streamWords c p) = .ok p := by
  obtain ⟨-, hmax, hoffset, -, hm⟩ := hc
  have hoffset_pos : 0 < c.programOffset.toNat := by rw [hoffset]; bv_omega
  have hconsts_le : p.consts.length ≤ p.size := Nat.le_add_right ..
  obtain ⟨j, hconsts⟩ := decodeConsts_constPairs p.consts (p.subs.flatMap (subSection c.opcodeMap) ++ [haltWord])
    c.programOffset 0 (by have := hp.2; omega)
  have hsubs := decodeSubs_subSections hm p.subs (p.subs.flatMap (subSection c.opcodeMap) ++ [haltWord]).length j
    (by
      rw [List.length_append]
      exact Nat.lt_succ_of_le (length_le_length_subSections c.opcodeMap p.subs))
    fun is h => by have := subSize_le_size h; have := hp.2; omega
  rw [decodeStream, streamWords, hconsts]
  simp only [hsubs, checkProgram_of_valid hp]

/-- A word stream that decodes is its program's, but for the end sentinel it may lack. -/
theorem eq_streamWords_of_decodeStream {c : Config} {ws : List Word} {p : Program} (h : decodeStream c ws = .ok p) :
    p.valid c ∧ (streamWords c p = ws ∨ streamWords c p = ws ++ [haltWord]) := by
  rw [decodeStream] at h
  split at h
  · cases h
  next cs j rest hconsts =>
    split at h
    · cases h
    next subs hsubs =>
      obtain ⟨rfl, hvalid⟩ := valid_of_checkProgram h
      refine ⟨hvalid, ?_⟩
      rw [eq_constPairs_of_decodeConsts _ _ _ c.programOffset _ _ _ rfl hconsts, streamWords]
      obtain rfl | rfl := eq_subSections_of_decodeSubs _ _ _ _ hsubs
      · exact .inr (by simp)
      · exact .inl rfl

/-! ### The obligations -/

/-- Settles O51: an opcode's number finds its row again, and the row says how many words the operands take. -/
theorem decodeOfEncodeIsIdentity : Obligations.DecodeOfEncodeIsIdentity :=
  fun _ i rest hm => decode_encode_append hm i rest

/-- Settles O52, for every map: the row a lookup finds bears the number looked up. -/
theorem encodeOfDecodeIsIdentity : Obligations.EncodeOfDecodeIsIdentity :=
  fun _ _ _ _ h => eq_encode_append_of_decode h

/-- Settles O50: the words are those the spec's map encodes to, and it numbers no row 0x0020. -/
theorem tableWordsDecode : Obligations.TableWordsDecode := by
  have hdecode := @decode_encode_append _ OpcodeMap.standard_valid
  exact ⟨hdecode (.cpl 12 3) [], hdecode (.add 1) [], hdecode (.shr 0 1) [0x0015], hdecode (.cal 0x2000) [],
    hdecode (.ldh 8 7) [], by decide⟩

/-- Settles O53: the two sections are read back in turn, no constant address and no length word being the sentinel. -/
theorem codecRoundTrip : Obligations.CodecRoundTrip := by
  intro c p hc hp
  have hbody : (encodeProgram c p).drop 4 = (streamWords c p).flatMap wordBytes := rfl
  have heven : ((streamWords c p).flatMap wordBytes).length % 2 ≠ 1 := by
    have : ((streamWords c p).flatMap wordBytes).length = (streamWords c p).length * 2 := by
      simp [List.length_flatMap, wordBytes]
    omega
  have hmagic : (encodeProgram c p).take 4 = magic := rfl
  rw [decodeProgram, if_neg (not_not.2 hmagic), hbody, if_neg heven, bytesWords_wordBytes, decodeStream_streamWords hc hp]

/-- Settles O54: each section read is what the encoder writes, and an even number of bytes is that of its words. -/
theorem decodedBinaryIsCanonical : Obligations.DecodedBinaryIsCanonical := by
  intro c bytes p h
  rw [decodeProgram] at h
  split at h
  · cases h
  next hmagic =>
    split at h
    · cases h
    next heven =>
      obtain ⟨hvalid, hstream⟩ := eq_streamWords_of_decodeStream h
      have hbytes : magic ++ (bytesWords (bytes.drop 4)).flatMap wordBytes = bytes := by
        rw [wordBytes_bytesWords _ (by omega), ← not_not.1 hmagic, List.take_append_drop]
      refine ⟨hvalid, hstream.imp (fun hs => ?_) fun hs => ?_⟩
      · rw [encodeProgram, hs, hbytes]
      · rw [encodeProgram, hs, List.flatMap_append, ← List.append_assoc, hbytes]
        rfl

end Sys2Proof.Machine
end

section
/-! PROOFS. Multiplication, division and shifts (42_arithmetic.md R135 to R139; 43_logic_shift.md R144, R145): how frames
compose, the words the three operations compute, what the instructions answer, then the obligations. -/

namespace Sys2Proof.Machine

/-! ### Frames in sequence -/

theorem Frame.trans {regs regs' : List RegId} {cells cells' : List Word} {s t u : State} (h : Frame regs cells s t)
    (h' : Frame regs' cells' t u) : Frame (regs ++ regs') (cells ++ cells') s u where
  regs_kept r hr := by
    obtain ⟨hr, hr'⟩ := not_or.1 (mt List.mem_append.2 hr)
    rw [h'.regs_kept r hr', h.regs_kept r hr]
  cells_kept a ha := by
    obtain ⟨ha, ha'⟩ := not_or.1 (mt List.mem_append.2 ha)
    rw [h'.cells_kept a ha', h.cells_kept a ha]
  heapOffset_kept := h'.heapOffset_kept.trans h.heapOffset_kept
  fault_kept := h'.fault_kept.trans h.fault_kept
  trace_kept := h'.trace_kept.trans h.trace_kept
  cfg_kept := h'.cfg_kept.trans h.cfg_kept

/-- Where every register a frame names holds its old value again, the frame names none. -/
theorem Frame.of_restored {regs : List RegId} {cells : List Word} {s t : State} (h : Frame regs cells s t)
    (hr : ∀ r ∈ regs, t.reg r = s.reg r) : Frame [] cells s t where
  regs_kept r _ := if hmem : r ∈ regs then hr r hmem else h.regs_kept r hmem
  cells_kept := h.cells_kept
  heapOffset_kept := h.heapOffset_kept
  fault_kept := h.fault_kept
  trace_kept := h.trace_kept
  cfg_kept := h.cfg_kept

/-! ### Signed division as integer division (42_arithmetic.md R137) -/

theorem magnitude_of_nonneg {v : Word} (h : v.msb = false) : magnitude v = v.toNat := by simp [magnitude, h]

/-- A word is its magnitude with the sign of bit 15. -/
theorem toInt_eq_signed_magnitude (v : Word) :
    v.toInt = if v.msb then -(magnitude v : Int) else (magnitude v : Int) := by
  have hmsb : v.msb = decide (32768 ≤ v.toNat) := v.msb_eq_decide
  have hlt := v.isLt
  rw [BitVec.toInt_eq_msb_cond, magnitude, toNat_twc, hmsb]
  split <;> simp_all
  omega

theorem magnitude_eq_natAbs (v : Word) : magnitude v = v.toInt.natAbs := by
  rw [toInt_eq_signed_magnitude]
  split <;> simp

theorem magnitude_lt (v : Word) : magnitude v < 65536 := by
  unfold magnitude
  split
  · exact (twc v).isLt
  · exact v.isLt

theorem toInt_tdiv_toInt (c s : Word) : c.toInt.tdiv s.toInt =
    if c.msb ≠ s.msb then -((magnitude c / magnitude s : Nat) : Int) else ((magnitude c / magnitude s : Nat) : Int) := by
  rw [toInt_eq_signed_magnitude c, toInt_eq_signed_magnitude s]
  cases c.msb <;> cases s.msb <;> simp

theorem toInt_tmod_toInt (c s : Word) : c.toInt.tmod s.toInt =
    if c.msb then -((magnitude c % magnitude s : Nat) : Int) else ((magnitude c % magnitude s : Nat) : Int) := by
  rw [toInt_eq_signed_magnitude c, toInt_eq_signed_magnitude s]
  cases c.msb <;> cases s.msb <;> simp [Int.tmod_eq_emod_of_nonneg]

/-- The quotient truncates toward zero. -/
theorem divSigned_fst (sign : RemSign) (c s : Word) :
    (divSigned sign c s).1 = BitVec.ofInt 16 (c.toInt.tdiv s.toInt) := by
  rw [toInt_tdiv_toInt, divSigned, apply_ite (BitVec.ofInt 16), BitVec.ofInt_neg, BitVec.ofInt_natCast, twc_eq_neg]

/-- Under `dividend` the remainder is that of truncating division. -/
theorem divSigned_snd_dividend (c s : Word) :
    (divSigned .dividend c s).2 = BitVec.ofInt 16 (c.toInt.tmod s.toInt) := by
  rw [toInt_tmod_toInt, apply_ite (BitVec.ofInt 16), BitVec.ofInt_neg, BitVec.ofInt_natCast, ← twc_eq_neg]
  simp only [divSigned, true_and]

/-- Under `magnitude` the remainder is that of the magnitudes. -/
theorem toNat_divSigned_snd_magnitude (c s : Word) :
    ((divSigned .magnitude c s).2).toNat = c.toInt.natAbs % s.toInt.natAbs := by
  have hlt : magnitude c % magnitude s < 65536 := (Nat.mod_le ..).trans_lt (magnitude_lt c)
  rw [← magnitude_eq_natAbs, ← magnitude_eq_natAbs]
  simpa [divSigned] using hlt

/-- On two words with bit 15 clear, signed division is unsigned division, under both remainder rules (R139). -/
theorem divSigned_of_nonneg (sign : RemSign) {c s : Word} (hc : c.msb = false) (hs : s.msb = false) :
    divSigned sign c s = divUnsigned c s := by
  simp [divSigned, divUnsigned, hc, hs, magnitude_of_nonneg, BitVec.udiv_def, BitVec.umod_def]

/-! ### Shifts by an unmasked amount (43_logic_shift.md R144, R145) -/

/-- A word of 16 bits shifted by 16 or more is 0, so the amount needs no case of its own. -/
theorem shiftRight_eq (v k : Word) : shiftRight v k = v >>> k.toNat := by
  unfold shiftRight
  split
  next h => exact (BitVec.ushiftRight_eq_zero h).symm
  · rfl

theorem shiftLeft_eq (v k : Word) : shiftLeft v k = v <<< k.toNat := by
  unfold shiftLeft
  split
  next h => exact (BitVec.shiftLeft_eq_zero h).symm
  · rfl

theorem toNat_shiftRight (v k : Word) : (shiftRight v k).toNat = v.toNat / 2 ^ k.toNat := by
  rw [shiftRight_eq, BitVec.toNat_ushiftRight, Nat.shiftRight_eq_div_pow]

theorem toNat_shiftLeft (v k : Word) : (shiftLeft v k).toNat = v.toNat * 2 ^ k.toNat % 65536 := by
  rw [shiftLeft_eq, BitVec.toNat_shiftLeft, Nat.shiftLeft_eq]

/-! ### What the instructions answer -/

theorem divideBy_of_ne_zero {src : Word} {r : RegId} {s : State} (h : src.toNat = r.val) (hr : s.reg r ≠ 0)
    (qr : Word → Word → Word × Word) :
    divideBy qr src s = .next ((s.setReg .ac (qr s.ac (s.reg r)).1).setReg .ex (qr s.ac (s.reg r)).2) := by
  rw [divideBy, withReg_of_names h, if_neg hr]

/-- A zero divisor is the one cause of `DivideByZero` (R138). -/
theorem divideBy_of_zero {src : Word} {r : RegId} {s : State} (h : src.toNat = r.val) (hr : s.reg r = 0)
    (qr : Word → Word → Word × Word) : divideBy qr src s = .next (s.raiseHere .divideByZero) := by
  rw [divideBy, withReg_of_names h, if_pos hr]

theorem ac_setReg_ac_ex (s : State) (q r : Word) : ((s.setReg .ac q).setReg .ex r).ac = q := by simp

theorem ex_setReg_ac_ex (s : State) (q r : Word) : ((s.setReg .ac q).setReg .ex r).ex = r := by simp

theorem exec_mul {src : Word} {r : RegId} (h : src.toNat = r.val) (s : State) :
    exec (.mul src) s = .next (s.setReg .ac (BitVec.ofNat 16 (s.ac.toNat * (s.reg r).toNat))) :=
  accumulate_of_names h (fun c v => BitVec.ofNat 16 (c.toNat * v.toNat)) s

theorem exec_div (src : Word) (s : State) : exec (.div src) s = divideBy divUnsigned src s := rfl

theorem exec_dvc (src : Word) (s : State) : exec (.dvc src) s = divideBy (divSigned s.cfg.dvcRemSign) src s := rfl

theorem exec_shr {reg amountReg : Word} {r k : RegId} (hr : reg.toNat = r.val) (hk : amountReg.toNat = k.val)
    (s : State) : exec (.shr reg amountReg) s = .next (s.setReg r (shiftRight (s.reg r) (s.reg k))) :=
  withReg_withReg_of_names hr hk s _

theorem exec_shl {reg amountReg : Word} {r k : RegId} (hr : reg.toNat = r.val) (hk : amountReg.toNat = k.val)
    (s : State) : exec (.shl reg amountReg) s = .next (s.setReg r (shiftLeft (s.reg r) (s.reg k))) :=
  withReg_withReg_of_names hr hk s _

/-! ### The obligations -/

/-- Settles O9: the product is taken of naturals and cut to a word; `ex` is not written (D12). -/
theorem mulKeepsLowWord : Obligations.MulKeepsLowWord := by
  refine ⟨fun src => encode_standard (.mul src), fun s src r hr => ?_, fun s src h => ?_⟩
  · refine ⟨_, exec_mul hr s, ?_, frame_setReg ..⟩
    rw [State.ac, State.reg_setReg_self, BitVec.toNat_ofNat]
  · exact faultedAt_of_invalid_operand ⟨_, List.mem_singleton_self _, h⟩ s

/-- Settles O10: `ac` and the divisor are read before either result is written, so `src` may be `ac` or `ex`. -/
theorem divIsUnsignedDivision : Obligations.DivIsUnsignedDivision := by
  refine ⟨fun src => encode_standard (.div src), fun s src r hr hne => ?_, fun s src r hr hzero => ?_, fun s src h => ?_⟩
  · refine ⟨_, divideBy_of_ne_zero hr hne divUnsigned, ?_, ?_, frame_setReg_setReg ..⟩
    · rw [ac_setReg_ac_ex, divUnsigned, BitVec.toNat_udiv]
    · rw [ex_setReg_ac_ex, divUnsigned, BitVec.toNat_umod]
  · exact ⟨_, divideBy_of_zero hr hzero divUnsigned, faultedAt_raiseHere s _⟩
  · exact faultedAt_of_invalid_operand ⟨_, List.mem_singleton_self _, h⟩ s

/-- Settles O11: division of sign and magnitude is truncating integer division; -32768 by -1 wraps to -32768. -/
theorem dvcIsSignedDivision : Obligations.DvcIsSignedDivision := by
  refine ⟨fun src => encode_standard (.dvc src), fun s src r hr hne => ?_, fun s src r hr hzero => ?_, fun s src h => ?_⟩
  · refine ⟨_, divideBy_of_ne_zero hr hne (divSigned s.cfg.dvcRemSign), ?_, fun hsign => ?_, fun hsign => ?_,
      frame_setReg_setReg ..⟩
    · rw [ac_setReg_ac_ex, divSigned_fst]
    · rw [ex_setReg_ac_ex, hsign, toNat_divSigned_snd_magnitude]
    · rw [ex_setReg_ac_ex, hsign, divSigned_snd_dividend]
  · exact ⟨_, divideBy_of_zero hr hzero (divSigned s.cfg.dvcRemSign), faultedAt_raiseHere s _⟩
  · exact faultedAt_of_invalid_operand ⟨_, List.mem_singleton_self _, h⟩ s

/-- Settles O12: `sub` adds the negation of what `add` added, which `add` left in its register; on words with bit 15 clear
both divisions compute one pair. -/
theorem arithmeticLawsHold : Obligations.ArithmeticLawsHold := by
  refine ⟨fun s t u src r hr hne ht hu => ?_, fun s src r hr hac hsrc => ?_⟩
  · obtain rfl : s.setReg .ac (s.ac + s.reg r) = t := Host.Outcome.next.inj ((exec_add hr s).symm.trans ht)
    obtain rfl := Host.Outcome.next.inj ((exec_sub hr _).symm.trans hu)
    have hac : ((s.setReg .ac (s.ac + s.reg r)).setReg .ac ((s.setReg .ac (s.ac + s.reg r)).ac
        + twc ((s.setReg .ac (s.ac + s.reg r)).reg r))).ac = s.ac := by
      rw [State.ac, State.reg_setReg_self, State.ac, State.reg_setReg_self, State.reg_setReg_of_ne _ hne, twc_eq_neg,
        ← BitVec.sub_eq_add_neg, BitVec.add_sub_cancel]
    exact ⟨hac, ((frame_setReg ..).trans (frame_setReg ..)).of_restored (by simpa using hac)⟩
  · have hac' : s.ac.msb = false := BitVec.msb_eq_false_iff_two_mul_lt.2 (by omega)
    have hsrc' : (s.reg r).msb = false := BitVec.msb_eq_false_iff_two_mul_lt.2 (by omega)
    rw [exec_dvc, exec_div, divideBy, divideBy, withReg_of_names hr, withReg_of_names hr, divSigned_of_nonneg _ hac' hsrc']

/-- Settles O15: an amount of 16 or more shifts every bit out, as division by and multiplication with the power of two
do. -/
theorem shiftsAreLogicalAndUnmasked : Obligations.ShiftsAreLogicalAndUnmasked := by
  refine ⟨fun reg k => ⟨encode_standard (.shr reg k), encode_standard (.shl reg k)⟩, fun s reg amountReg r k hr hk => ?_,
    fun s reg amountReg r k hr hk => ?_, fun s reg amountReg h => ⟨?_, ?_⟩⟩
  · refine ⟨_, exec_shr hr hk s, ?_, frame_setReg ..⟩
    rw [State.reg_setReg_self, toNat_shiftRight]
  · refine ⟨_, exec_shl hr hk s, ?_, frame_setReg ..⟩
    rw [State.reg_setReg_self, toNat_shiftLeft]
  · exact faultedAt_of_invalid_operand (by simpa [Instr.regOperands] using h) s
  · exact faultedAt_of_invalid_operand (by simpa [Instr.regOperands] using h) s

end Sys2Proof.Machine
end

section
/-! PROOFS. Stack and conditional control transfer (44_stack_control.md): what a condition decides, what the instructions
answer, then the obligations. -/

namespace Sys2Proof.Machine

/-! ### The condition -/

/-- Where `bi` holds a marker, the action runs exactly when that marker is the one wanted. -/
theorem ifCond_of_cond {s : State} {b : Bool} (h : s.cond? = some b) (want : Bool) (act : State → State) :
    s.ifCond want act = if b = want then act s else s := by
  rw [State.ifCond, h]

theorem ifCond_of_cond_none {s : State} (h : s.cond? = none) (want : Bool) (act : State → State) :
    s.ifCond want act = s.raiseHere .biIndeterminate := by
  rw [State.ifCond, h]

/-- Where a conditional jump goes, `bi` holding a marker; it does not fault. -/
theorem ifCond_jump_spec {s : State} {b : Bool} (h : s.cond? = some b) (want : Bool) (r : RegId) :
    (s.ifCond want fun s => s.jump (s.reg r)).pc = (if b = want then s.reg r else s.pc)
    ∧ (s.ifCond want fun s => s.jump (s.reg r)).fault = s.fault := by
  rw [ifCond_of_cond h]
  split
  · exact ⟨State.reg_setReg_self .., rfl⟩
  · exact ⟨rfl, rfl⟩

/-- What a compare puts into `bi` is read back as the outcome of the compare, for two distinct markers. -/
theorem cond?_setReg_marker {s : State} (hne : s.cfg.biTrue ≠ s.cfg.biFalse) (b : Bool) :
    (s.setReg .bi (s.marker b)).cond? = some b := by
  cases b with
  | true => exact cond?_true (State.reg_setReg_self ..)
  | false => exact cond?_false hne (State.reg_setReg_self ..)

/-! ### What the instructions answer -/

theorem exec_psh {valReg : Word} {r : RegId} (h : valReg.toNat = r.val) (s : State) :
    exec (.psh valReg) s = .next (s.push (s.reg r)) :=
  withReg_of_names h s _

/-- The destination is written after `sp` (D14). -/
theorem exec_pop {dst : Word} {d : RegId} (h : dst.toNat = d.val) (s : State) :
    exec (.pop dst) s = .next ((s.setReg .sp (s.sp + 1)).setReg d (s.memRead s.sp)) :=
  withReg_of_names h s _

theorem exec_cle (addr : Word) (s : State) : exec (.cle addr) s = .next (s.ifCond true fun s => s.call addr) := rfl

theorem exec_cln (addr : Word) (s : State) : exec (.cln addr) s = .next (s.ifCond false fun s => s.call addr) := rfl

theorem exec_gte {reg : Word} {r : RegId} (h : reg.toNat = r.val) (s : State) :
    exec (.gte reg) s = .next (s.ifCond true fun s => s.jump (s.reg r)) :=
  withReg_of_names h s _

theorem exec_gtn {reg : Word} {r : RegId} (h : reg.toNat = r.val) (s : State) :
    exec (.gtn reg) s = .next (s.ifCond false fun s => s.jump (s.reg r)) :=
  withReg_of_names h s _

/-- The clause every call meets (R155). -/
theorem exists_call {i : Instr} {s : State} {addr : Word} (h : exec i s = .next (s.call addr)) :
    ∃ t, exec i s = .next t ∧ t.pc = addr ∧ t.sp = s.sp - 1 ∧ t.memRead (s.sp - 1) = s.pc
      ∧ Frame [.sp, .pc] [s.sp - 1] s t := by
  obtain ⟨hpc, hsp, -, hmem, -⟩ := call_spec s addr
  exact ⟨_, h, hpc, hsp, by rw [hmem, if_pos rfl], frame_call s addr⟩

/-- The clause every jump meets (40_execution_cycle.md R107). -/
theorem exists_jump {i : Instr} {s : State} {target : Word} (h : exec i s = .next (s.jump target)) :
    ∃ t, exec i s = .next t ∧ t.pc = target ∧ Frame [.pc] [] s t :=
  ⟨_, h, State.reg_setReg_self .., frame_setReg ..⟩

theorem exists_biIndeterminate {i : Instr} {s : State} (h : exec i s = .next (s.raiseHere .biIndeterminate)) :
    ∃ t, exec i s = .next t ∧ FaultedAt .biIndeterminate s.lc s t :=
  ⟨_, h, faultedAt_raiseHere s _⟩

/-! ### The obligations -/

/-- Settles O16: the register is read before `sp` is decremented, so `psh sp` pushes the old `sp` (D14). -/
theorem pshPushesRegister : Obligations.PshPushesRegister := by
  refine ⟨fun valReg => encode_standard (.psh valReg), fun s valReg r hr => ?_, fun s valReg h => ?_⟩
  · obtain ⟨hsp, -, hmem, -⟩ := push_spec s (s.reg r)
    exact ⟨_, exec_psh hr s, hsp, by rw [hmem, if_pos rfl], frame_push s _⟩
  · exact faultedAt_of_invalid_operand ⟨_, List.mem_singleton_self _, h⟩ s

/-- Settles O17: `sp` is incremented before the destination is written, so only `pop sp` loses the increment. -/
theorem popPopsRegister : Obligations.PopPopsRegister := by
  refine ⟨fun dst => encode_standard (.pop dst), fun s dst d hd => ?_, fun s dst h => ?_⟩
  · refine ⟨_, exec_pop hd s, State.reg_setReg_self .., fun hne => ?_, frame_setReg_setReg ..⟩
    rw [State.sp, State.reg_setReg_of_ne _ hne.symm, State.reg_setReg_self]
  · exact faultedAt_of_invalid_operand ⟨_, List.mem_singleton_self _, h⟩ s

/-- Settles O21: the condition `bi` states decides between the call, no effect and the fault. -/
theorem conditionalCallsFollowMarker : Obligations.ConditionalCallsFollowMarker := by
  refine ⟨fun addr => ⟨encode_standard (.cle addr), encode_standard (.cln addr)⟩, fun s addr htrue => ?_,
    fun s addr hne hfalse => ?_, fun s addr hne hfalse => ?_, fun s addr htrue => ?_,
    fun s addr htrue hfalse => ⟨?_, ?_⟩⟩
  · apply exists_call
    rw [exec_cle, ifCond_of_cond (cond?_true htrue), if_pos rfl]
  · apply exists_call
    rw [exec_cln, ifCond_of_cond (cond?_false hne hfalse), if_pos rfl]
  · rw [exec_cle, ifCond_of_cond (cond?_false hne hfalse), if_neg Bool.false_ne_true]
  · rw [exec_cln, ifCond_of_cond (cond?_true htrue), if_neg Bool.false_ne_true.symm]
  · apply exists_biIndeterminate
    rw [exec_cle, ifCond_of_cond_none (cond?_none htrue hfalse)]
  · apply exists_biIndeterminate
    rw [exec_cln, ifCond_of_cond_none (cond?_none htrue hfalse)]

/-- Settles O23: the register is checked first (D26); then the condition decides as for the calls. -/
theorem conditionalJumpsFollowMarker : Obligations.ConditionalJumpsFollowMarker := by
  refine ⟨fun reg => ⟨encode_standard (.gte reg), encode_standard (.gtn reg)⟩, fun s reg r hr htrue => ⟨?_, ?_⟩,
    fun s reg r hr hne hfalse => ⟨?_, ?_⟩, fun s reg hlt htrue hfalse => ⟨?_, ?_⟩, fun s reg h => ⟨?_, ?_⟩⟩
  · apply exists_jump (target := s.reg r)
    rw [exec_gte hr, ifCond_of_cond (cond?_true htrue), if_pos rfl]
  · rw [exec_gtn hr, ifCond_of_cond (cond?_true htrue), if_neg Bool.false_ne_true.symm]
  · apply exists_jump (target := s.reg r)
    rw [exec_gtn hr, ifCond_of_cond (cond?_false hne hfalse), if_pos rfl]
  · rw [exec_gte hr, ifCond_of_cond (cond?_false hne hfalse), if_neg Bool.false_ne_true]
  · apply exists_biIndeterminate
    rw [exec_gte (r := ⟨reg.toNat, hlt⟩) rfl, ifCond_of_cond_none (cond?_none htrue hfalse)]
  · apply exists_biIndeterminate
    rw [exec_gtn (r := ⟨reg.toNat, hlt⟩) rfl, ifCond_of_cond_none (cond?_none htrue hfalse)]
  · exact faultedAt_of_invalid_operand ⟨_, List.mem_singleton_self _, h⟩ s
  · exact faultedAt_of_invalid_operand ⟨_, List.mem_singleton_self _, h⟩ s

/-- Settles O24: the second execute phase pops the word the first one pushed, from the address it pushed it to. -/
theorem stackDisciplineHolds : Obligations.StackDisciplineHolds := by
  refine ⟨fun s t u w hw ht hu => ?_, fun s t u addr ht hu => ?_⟩
  · obtain ⟨r, hr⟩ : ∃ r : RegId, w.toNat = r.val := ⟨⟨w.toNat, hw⟩, rfl⟩
    obtain ⟨t', ht', hsp, hpushed, hframe⟩ := pshPushesRegister.2.1 s w r hr
    obtain rfl := Host.Outcome.next.inj (ht'.symm.trans ht)
    obtain ⟨u', hu', hpopped, hsp', hframe'⟩ := popPopsRegister.2.1 t' w r hr
    obtain rfl := Host.Outcome.next.inj (hu'.symm.trans hu)
    have hreg : u'.reg r = s.reg r := by rw [hpopped, hsp, hpushed]
    have hsp'' : u'.sp = s.sp := by
      by_cases h : r = .sp
      · subst h; exact hreg
      · rw [hsp' h, hsp, BitVec.sub_add_cancel]
    exact (hframe.trans hframe').of_restored (by simpa using ⟨hsp'', hreg⟩)
  · obtain ⟨t', ht', -, hsp, hpushed, hframe⟩ := calPushesAndJumps.2 s addr
    obtain rfl := Host.Outcome.next.inj (ht'.symm.trans ht)
    obtain ⟨u', hu', hpopped, hsp', hframe'⟩ := retPopsProgramCounter.2.1 t'
    obtain rfl := Host.Outcome.next.inj (hu'.symm.trans hu)
    have hpc : u'.pc = s.pc := by rw [hpopped, hsp, hpushed]
    have hsp'' : u'.sp = s.sp := by rw [hsp', hsp, BitVec.sub_add_cancel]
    exact ⟨hpc, (hframe.trans hframe').of_restored (by simpa using ⟨hsp'', hpc, hsp'', hpc⟩)⟩

/-- Settles O25: with distinct markers the jump reads back from `bi` the outcome of the compare. -/
theorem branchFollowsCompare : Obligations.BranchFollowsCompare := by
  intro s t r1 r2 reg a b j hne ha hb hj ht
  obtain rfl := Host.Outcome.next.inj ((exec_cmp ha hb s).symm.trans ht)
  have hcond := cond?_setReg_marker hne (s.reg a == s.reg b)
  have hpc : (s.setReg .bi (s.marker (s.reg a == s.reg b))).pc = s.pc := State.reg_setReg_of_ne _ RegId.pc_ne_bi _
  obtain ⟨hgte, hfault⟩ := ifCond_jump_spec hcond true j
  obtain ⟨hgtn, hfault'⟩ := ifCond_jump_spec hcond false j
  rw [hpc] at hgte hgtn
  refine ⟨⟨_, exec_gte hj _, hgte.trans ?_, hfault⟩, ⟨_, exec_gtn hj _, hgtn.trans ?_, hfault'⟩⟩
  · simp only [beq_iff_eq]
  · simp only [beq_eq_false_iff_ne, ne_eq, ite_not]

end Sys2Proof.Machine
end

section
/-! PROOFS. Memory and the video call-out (20_memory.md; 45_heap_video.md): what `sth` and `vga` answer and the words of the
text region, then the obligations. -/

namespace Sys2Proof.Machine

theorem exec_sth {addrReg valReg : Word} {a v : RegId} (ha : addrReg.toNat = a.val) (hv : valReg.toNat = v.val)
    (s : State) : exec (.sth addrReg valReg) s = .next (s.memWrite (s.heapAddr (s.reg a)) (s.reg v)) :=
  withReg_withReg_of_names ha hv s _

theorem exec_vga (s : State) : exec .vga s = .next s.emitRedraw := rfl

theorem memRead_memWrite_self (s : State) (a v : Word) : (s.memWrite a v).memRead a = v := by simp

theorem heapAddr_memWrite (s : State) (a v offset : Word) : (s.memWrite a v).heapAddr offset = s.heapAddr offset := rfl

theorem getElem?_textRegion (s : State) {k : Nat} (h : k < s.cfg.stackMin.toNat) :
    s.textRegion[k]? = some (s.memRead (BitVec.ofNat 16 k)) := by
  simp [State.textRegion, h]

/-- Settles O26: the address is a sum of words, which wraps modulo 2^16, and none is refused. -/
theorem sthStoresAtHeapOffset : Obligations.SthStoresAtHeapOffset := by
  refine ⟨fun addrReg valReg => encode_standard (.sth addrReg valReg), fun s addrReg valReg a v ha hv => ?_,
    fun s addrReg valReg h => ?_⟩
  · exact ⟨_, exec_sth ha hv s, memRead_memWrite_self .., frame_memWrite ..⟩
  · exact faultedAt_of_invalid_operand (by simpa [Instr.regOperands] using h) s

/-- Settles O28: the event holds the text region word by word, and the trace is all `vga` writes. -/
theorem vgaAppendsTextRegion : Obligations.VgaAppendsTextRegion :=
  ⟨encode_standard .vga, fun s => ⟨_, ⟨s.textRegion⟩, exec_vga s, State.emitRedraw_trace s, State.length_textRegion s,
    fun _ hk => getElem?_textRegion s hk, State.reg_emitRedraw s, State.memRead_emitRedraw s, rfl, rfl, rfl⟩⟩

/-- Settles O29: a store writes no register, so the load computes the address the store went to. -/
theorem loadSeesEarlierStore : Obligations.LoadSeesEarlierStore := by
  refine ⟨fun s t u addrReg valReg dst v d ha hv hd ht hu => ?_, fun s t u addrReg valReg dst v d ha hv hd ht hu => ?_⟩
  · obtain ⟨a, ha⟩ : ∃ a : RegId, addrReg.toNat = a.val := ⟨⟨addrReg.toNat, ha⟩, rfl⟩
    obtain rfl := Host.Outcome.next.inj ((exec_str ha hv s).symm.trans ht)
    obtain rfl := Host.Outcome.next.inj ((exec_ldr hd ha _).symm.trans hu)
    rw [State.reg_setReg_self, State.reg_memWrite, memRead_memWrite_self]
  · obtain ⟨a, ha⟩ : ∃ a : RegId, addrReg.toNat = a.val := ⟨⟨addrReg.toNat, ha⟩, rfl⟩
    obtain rfl := Host.Outcome.next.inj ((exec_sth ha hv s).symm.trans ht)
    obtain rfl := Host.Outcome.next.inj ((exec_ldh hd ha _).symm.trans hu)
    rw [State.reg_setReg_self, State.reg_memWrite, heapAddr_memWrite, memRead_memWrite_self]

end Sys2Proof.Machine
end

section
/-! PROOFS. What an execute phase can do at all (10_state.md R22, R30; 20_memory.md R56; 60_exceptions.md section 2): the
causes of its faults, what an instruction without a cause completes, then the obligations that follow for all
instructions. -/

namespace Sys2Proof

open Machine

/-- The causes of an execute-phase fault (60_exceptions.md R243 to R245); the two other kinds are the fetch's. -/
def Instr.FaultsBy (i : Instr) (s : State) : Fault → Prop
  | .invalidRegister => ¬ i.wellFormed
  | .divideByZero => ∃ src r, (i = .div src ∨ i = .dvc src) ∧ regId? src = some r ∧ s.reg r = 0
  | .biIndeterminate => i.wellFormed ∧ s.bi ≠ s.cfg.biTrue ∧ s.bi ≠ s.cfg.biFalse
      ∧ ∃ w, i = .cle w ∨ i = .cln w ∨ i = .gte w ∨ i = .gtn w
  | .unknownOpcode | .operandAtHaltAddress => False

/-- The execute phase of `i` on `s` answers `t` without a fault, within what the rule of `i` names. -/
structure Instr.Completes (i : Instr) (s t : State) : Prop where
  answers : exec i s = .next t
  regs_kept : ∀ r, ¬ i.writesReg r → t.reg r = s.reg r
  cells_kept : ∀ a, i.storeAddr? s ≠ some a → t.memRead a = s.memRead a
  fault_kept : t.fault = s.fault
  trace_kept : i ≠ .vga → t.trace = s.trace

theorem Instr.exists_register {i : Instr} (hwf : i.wellFormed) {w : Word} (hw : w ∈ i.regOperands) :
    ∃ r : RegId, w.toNat = r.val :=
  ⟨⟨w.toNat, i.wellFormed_iff.1 hwf w hw⟩, rfl⟩

end Sys2Proof

namespace Sys2Proof.Machine

theorem Frame.refl (s : State) : Frame [] [] s s := ⟨fun _ _ => rfl, fun _ _ => rfl, rfl, rfl, rfl, rfl⟩

theorem cond?_eq_none {s : State} : s.cond? = none ↔ s.bi ≠ s.cfg.biTrue ∧ s.bi ≠ s.cfg.biFalse := by
  unfold State.cond?
  split
  next h => simp [h]
  next h =>
    split
    next h' => simp [h']
    next h' => simp [h, h']

/-! ### A cause makes the fault -/

theorem exec_of_faultsBy {i : Instr} {s : State} {kind : Fault} (h : i.FaultsBy s kind) :
    exec i s = .next (s.raiseHere kind) := by
  cases kind with
  | unknownOpcode | operandAtHaltAddress => exact h.elim
  | invalidRegister =>
    refine exec_of_invalid_operand ?_ s
    simpa using mt i.wellFormed_iff.2 h
  | divideByZero =>
    obtain ⟨src, r, rfl | rfl, hr, hzero⟩ := h
    · rw [exec_div, divideBy_of_zero (regId?_eq_some.1 hr) hzero]
    · rw [exec_dvc, divideBy_of_zero (regId?_eq_some.1 hr) hzero]
  | biIndeterminate =>
    obtain ⟨hwf, htrue, hfalse, w, hi⟩ := h
    have hcond := cond?_none htrue hfalse
    obtain rfl | rfl | rfl | rfl := hi
    · rw [exec_cle, ifCond_of_cond_none hcond]
    · rw [exec_cln, ifCond_of_cond_none hcond]
    · obtain ⟨r, hr⟩ := Instr.exists_register hwf (List.mem_singleton_self w)
      rw [exec_gte hr, ifCond_of_cond_none hcond]
    · obtain ⟨r, hr⟩ := Instr.exists_register hwf (List.mem_singleton_self w)
      rw [exec_gtn hr, ifCond_of_cond_none hcond]

/-! ### Without a cause the instruction completes -/

theorem completes_of_frame {i : Instr} {s t : State} {regs : List RegId} {cells : List Word} (h : exec i s = .next t)
    (hframe : Frame regs cells s t) (hregs : ∀ r ∈ regs, i.writesReg r)
    (hcells : ∀ a ∈ cells, i.storeAddr? s = some a) : ∃ t, i.Completes s t :=
  ⟨t, h, fun r hr => hframe.regs_kept r (mt (hregs r) hr), fun a ha => hframe.cells_kept a (mt (hcells a) ha),
    hframe.fault_kept, fun _ => hframe.trace_kept⟩

theorem completes_of_setReg {i : Instr} {s : State} {r : RegId} {v : Word} (h : exec i s = .next (s.setReg r v))
    (hr : i.writesReg r) : ∃ t, i.Completes s t :=
  completes_of_frame h (frame_setReg s r v) (List.forall_mem_singleton.2 hr) (by simp)

theorem completes_of_setReg_setReg {i : Instr} {s : State} {r q : RegId} {v w : Word}
    (h : exec i s = .next ((s.setReg r v).setReg q w)) (hr : i.writesReg r) (hq : i.writesReg q) :
    ∃ t, i.Completes s t :=
  completes_of_frame h (frame_setReg_setReg s r q v w) (by simp [hr, hq]) (by simp)

theorem completes_of_memWrite {i : Instr} {s : State} {a v : Word} (h : exec i s = .next (s.memWrite a v))
    (ha : i.storeAddr? s = some a) : ∃ t, i.Completes s t :=
  completes_of_frame h (frame_memWrite s a v) (by simp) (List.forall_mem_singleton.2 ha)

theorem completes_of_call {i : Instr} {s : State} {target : Word} (h : exec i s = .next (s.call target))
    (hsp : i.writesReg .sp) (hpc : i.writesReg .pc) (hstore : i.storeAddr? s = some s.pushAddr) :
    ∃ t, i.Completes s t :=
  completes_of_frame h (frame_call s target) (by simp [hsp, hpc]) (List.forall_mem_singleton.2 hstore)

theorem completes_of_self {i : Instr} {s : State} (h : exec i s = .next s) : ∃ t, i.Completes s t :=
  completes_of_frame h (Frame.refl s) (by simp) (by simp)

theorem completes_of_divideBy {i : Instr} {s : State} {src : Word} {r : RegId} {qr : Word → Word → Word × Word}
    (h : exec i s = divideBy qr src s) (hr : src.toNat = r.val) (hne : s.reg r ≠ 0) (hac : i.writesReg .ac)
    (hex : i.writesReg .ex) : ∃ t, i.Completes s t :=
  completes_of_setReg_setReg (h.trans (divideBy_of_ne_zero hr hne qr)) hac hex

theorem completes_of_ifCond_call {i : Instr} {s : State} {want : Bool} {target : Word}
    (h : exec i s = .next (s.ifCond want fun s => s.call target)) (hcond : s.cond? ≠ none) (hsp : i.writesReg .sp)
    (hpc : i.writesReg .pc) (hstore : s.cond? = some want → i.storeAddr? s = some s.pushAddr) :
    ∃ t, i.Completes s t := by
  obtain ⟨hcond', hact⟩ | ⟨-, hact⟩ | ⟨hnone, -⟩ := ifCond_cases s want fun s => s.call target
  · exact completes_of_call (h.trans (congrArg _ hact)) hsp hpc (hstore hcond')
  · exact completes_of_self (h.trans (congrArg _ hact))
  · exact absurd hnone hcond

theorem completes_of_ifCond_jump {i : Instr} {s : State} {want : Bool} {r : RegId}
    (h : exec i s = .next (s.ifCond want fun s => s.jump (s.reg r))) (hcond : s.cond? ≠ none) (hpc : i.writesReg .pc) :
    ∃ t, i.Completes s t := by
  obtain ⟨-, hact⟩ | ⟨-, hact⟩ | ⟨hnone, -⟩ := ifCond_cases s want fun s => s.jump (s.reg r)
  · exact completes_of_setReg (h.trans (congrArg _ hact)) hpc
  · exact completes_of_self (h.trans (congrArg _ hact))
  · exact absurd hnone hcond

theorem completes_of_not_faultsBy {i : Instr} {s : State} (h : ∀ kind, ¬ i.FaultsBy s kind) :
    ∃ t, i.Completes s t := by
  have hwf : i.wellFormed := not_not.1 (h .invalidRegister)
  have hdiv (src : Word) (r : RegId) (hi : i = .div src ∨ i = .dvc src) (hr : src.toNat = r.val) : s.reg r ≠ 0 :=
    fun hzero => h .divideByZero ⟨src, r, hi, regId?_eq_some.2 hr, hzero⟩
  have hcond (hi : ∃ w, i = .cle w ∨ i = .cln w ∨ i = .gte w ∨ i = .gtn w) : s.cond? ≠ none := fun hnone => by
    obtain ⟨htrue, hfalse⟩ := cond?_eq_none.1 hnone
    exact h .biIndeterminate ⟨hwf, htrue, hfalse, hi⟩
  have hone (w : Word) (hi : i.regOperands = [w]) : ∃ r : RegId, w.toNat = r.val :=
    Instr.exists_register hwf (by simp [hi])
  have htwo (w w' : Word) (hi : i.regOperands = [w, w']) : ∃ r r' : RegId, w.toNat = r.val ∧ w'.toNat = r'.val := by
    obtain ⟨r, hr⟩ := Instr.exists_register hwf (w := w) (by simp [hi])
    obtain ⟨r', hr'⟩ := Instr.exists_register hwf (w := w') (by simp [hi])
    exact ⟨r, r', hr, hr'⟩
  cases i with
  | nop => exact completes_of_self (exec_nop s)
  | vga => exact ⟨_, exec_vga s, fun _ _ => rfl, fun _ _ => rfl, rfl, fun hne => absurd rfl hne⟩
  | cpl w imm =>
    obtain ⟨r, hr⟩ := hone w rfl
    exact completes_of_setReg (exec_cpl hr imm s) (regId?_eq_some.2 hr)
  | cop w w' =>
    obtain ⟨r, r', hr, hr'⟩ := htwo w w' rfl
    exact completes_of_setReg (exec_cop hr hr' s) (regId?_eq_some.2 hr)
  | ldr w w' =>
    obtain ⟨r, r', hr, hr'⟩ := htwo w w' rfl
    exact completes_of_setReg (exec_ldr hr hr' s) (regId?_eq_some.2 hr)
  | ldh w w' =>
    obtain ⟨r, r', hr, hr'⟩ := htwo w w' rfl
    exact completes_of_setReg (exec_ldh hr hr' s) (regId?_eq_some.2 hr)
  | shr w w' =>
    obtain ⟨r, r', hr, hr'⟩ := htwo w w' rfl
    exact completes_of_setReg (exec_shr hr hr' s) (regId?_eq_some.2 hr)
  | shl w w' =>
    obtain ⟨r, r', hr, hr'⟩ := htwo w w' rfl
    exact completes_of_setReg (exec_shl hr hr' s) (regId?_eq_some.2 hr)
  | cmp w w' =>
    obtain ⟨r, r', hr, hr'⟩ := htwo w w' rfl
    exact completes_of_setReg (exec_cmp hr hr' s) rfl
  | str w w' =>
    obtain ⟨r, r', hr, hr'⟩ := htwo w w' rfl
    exact completes_of_memWrite (exec_str hr hr' s) (by simp [Instr.storeAddr?, regId?_eq_some.2 hr])
  | sth w w' =>
    obtain ⟨r, r', hr, hr'⟩ := htwo w w' rfl
    exact completes_of_memWrite (exec_sth hr hr' s) (by simp [Instr.storeAddr?, regId?_eq_some.2 hr])
  | add w | xor w | and w | orr w =>
    obtain ⟨r, hr⟩ := hone w rfl
    exact completes_of_setReg (accumulate_of_names hr _ s) rfl
  | sub w =>
    obtain ⟨r, hr⟩ := hone w rfl
    exact completes_of_setReg (exec_sub hr s) rfl
  | mul w =>
    obtain ⟨r, hr⟩ := hone w rfl
    exact completes_of_setReg (exec_mul hr s) rfl
  | twc w | not w =>
    obtain ⟨r, hr⟩ := hone w rfl
    exact completes_of_setReg (inPlace_of_names hr _ s) (regId?_eq_some.2 hr)
  | inc w =>
    obtain ⟨r, hr⟩ := hone w rfl
    exact completes_of_setReg (exec_inc hr s) (regId?_eq_some.2 hr)
  | dec w =>
    obtain ⟨r, hr⟩ := hone w rfl
    exact completes_of_setReg (exec_dec hr s) (regId?_eq_some.2 hr)
  | div w =>
    obtain ⟨r, hr⟩ := hone w rfl
    exact completes_of_divideBy (exec_div w s) hr (hdiv w r (.inl rfl) hr) (.inl rfl) (.inr rfl)
  | dvc w =>
    obtain ⟨r, hr⟩ := hone w rfl
    exact completes_of_divideBy (exec_dvc w s) hr (hdiv w r (.inr rfl) hr) (.inl rfl) (.inr rfl)
  | psh w =>
    obtain ⟨r, hr⟩ := hone w rfl
    exact completes_of_frame (exec_psh hr s) (frame_push s _) (List.forall_mem_singleton.2 rfl)
      (List.forall_mem_singleton.2 rfl)
  | pop w =>
    obtain ⟨r, hr⟩ := hone w rfl
    exact completes_of_setReg_setReg (exec_pop hr s) (.inl rfl) (.inr (regId?_eq_some.2 hr))
  | ret => exact completes_of_setReg_setReg (exec_ret s) (.inl rfl) (.inr rfl)
  | cal w => exact completes_of_call (exec_cal w s) (.inl rfl) (.inr rfl) rfl
  | cle w => exact completes_of_ifCond_call (exec_cle w s) (hcond ⟨w, by simp⟩) (.inl rfl) (.inr rfl) fun h => if_pos h
  | cln w => exact completes_of_ifCond_call (exec_cln w s) (hcond ⟨w, by simp⟩) (.inl rfl) (.inr rfl) fun h => if_pos h
  | gto w =>
    obtain ⟨r, hr⟩ := hone w rfl
    exact completes_of_setReg (exec_gto hr s) rfl
  | gte w =>
    obtain ⟨r, hr⟩ := hone w rfl
    exact completes_of_ifCond_jump (exec_gte hr s) (hcond ⟨w, by simp⟩) rfl
  | gtn w =>
    obtain ⟨r, hr⟩ := hone w rfl
    exact completes_of_ifCond_jump (exec_gtn hr s) (hcond ⟨w, by simp⟩) rfl

/-- What an execute phase can do: fault for its cause and do nothing else, or complete. -/
theorem exec_cases {i : Instr} {s t : State} (h : exec i s = .next t) :
    (∃ kind, i.FaultsBy s kind ∧ t = s.raiseHere kind) ∨ ((∀ kind, ¬ i.FaultsBy s kind) ∧ i.Completes s t) := by
  by_cases hcause : ∃ kind, i.FaultsBy s kind
  · obtain ⟨kind, hkind⟩ := hcause
    exact .inl ⟨kind, hkind, Host.Outcome.next.inj (h.symm.trans (exec_of_faultsBy hkind))⟩
  · obtain ⟨t', ht'⟩ := completes_of_not_faultsBy (not_exists.1 hcause)
    obtain rfl := Host.Outcome.next.inj (h.symm.trans ht'.answers)
    exact .inr ⟨not_exists.1 hcause, ht'⟩

/-- An execute phase records a fault exactly for its cause. -/
theorem fault_eq_some_iff_faultsBy {i : Instr} {s t : State} (hfault : s.fault = none) (h : exec i s = .next t)
    (kind : Fault) : t.fault = some (kind, s.lc) ↔ i.FaultsBy s kind := by
  constructor
  · intro ht
    obtain ⟨kind', hkind', rfl⟩ | ⟨-, hdone⟩ := exec_cases h
    · obtain ⟨rfl, -⟩ := Prod.mk.inj (Option.some.inj ht)
      exact hkind'
    · rw [hdone.fault_kept, hfault] at ht
      cases ht
  · intro hkind
    obtain rfl := Host.Outcome.next.inj (h.symm.trans (exec_of_faultsBy hkind))
    rfl

/-! ### The obligations -/

/-- Settles O36: the causes exclude each other, since an execute phase answers one state. -/
theorem executeFaultsExactlyForTheirCauses : Obligations.ExecuteFaultsExactlyForTheirCauses := by
  intro i s hfault
  obtain ⟨t, ht, -⟩ := exec_answers i s
  have hiff := fault_eq_some_iff_faultsBy hfault ht
  refine ⟨t, ht, hiff .invalidRegister, hiff .divideByZero, hiff .biIndeterminate, ?_⟩
  obtain ⟨kind, hkind, rfl⟩ | ⟨-, hdone⟩ := exec_cases ht
  · cases kind with
    | invalidRegister => exact .inr (.inl rfl)
    | divideByZero => exact .inr (.inr (.inl rfl))
    | biIndeterminate => exact .inr (.inr (.inr rfl))
    | unknownOpcode | operandAtHaltAddress => exact hkind.elim
  · exact .inl (hdone.fault_kept.trans hfault)

/-- Settles O37: a fault writes the record alone. -/
theorem execWritesOnlyNamedRegisters : Obligations.ExecWritesOnlyNamedRegisters := by
  intro i s t r h hr
  obtain ⟨kind, -, rfl⟩ | ⟨-, hdone⟩ := exec_cases h
  · rfl
  · exact hdone.regs_kept r hr

/-- Settles O38: a fault stores nothing, whatever the address would be. -/
theorem execStoresOnlyAtItsAddress : Obligations.ExecStoresOnlyAtItsAddress := by
  intro i s t a h ha
  obtain ⟨kind, -, rfl⟩ | ⟨-, hdone⟩ := exec_cases h
  · rfl
  · exact hdone.cells_kept a ha

end Sys2Proof.Machine
end

section
/-! PROOFS. The step (40_execution_cycle.md): what the fetch answers, what a step can do at all, then the obligations. -/

namespace Sys2Proof.Machine

/-! ### The fetch -/

theorem decode_of_fetch {s : State} {i : Instr} (h : s.fetch = .ok i) :
    ∃ rest, decode s.cfg.opcodeMap (s.wordsFrom s.pc 3) = .ok (i, rest) := by
  rw [State.fetch] at h
  split at h
  next rest hdecode => cases h; exact ⟨rest, hdecode⟩
  all_goals cases h

theorem fetch_of_decode {s : State} {i : Instr} {rest : List Word}
    (h : decode s.cfg.opcodeMap (s.wordsFrom s.pc 3) = .ok (i, rest)) : s.fetch = .ok i := by
  rw [State.fetch, h]

/-- No word of a fetched instruction lies at 0xFFFF. -/
theorem pc_add_size_le_of_fetch {s : State} {i : Instr} (h : s.fetch = .ok i) : s.pc.toNat + i.size ≤ 0xFFFF := by
  obtain ⟨rest, hdecode⟩ := decode_of_fetch h
  have hlen := congrArg List.length (eq_encode_append_of_decode hdecode)
  have hpos := i.size_pos
  rw [length_wordsFrom, List.length_append, length_encode] at hlen
  omega

/-- Memory that holds an instruction's words at `pc` makes the fetch read that instruction. -/
theorem fetch_of_words_in_memory {s : State} {i : Instr} (hm : s.cfg.opcodeMap.valid)
    (hsize : s.pc.toNat + i.size ≤ 0xFFFF)
    (hwords : ∀ k < i.size, (encode s.cfg.opcodeMap i)[k]? = some (s.memRead (s.pc + BitVec.ofNat 16 k))) :
    s.fetch = .ok i := by
  have htake : (s.wordsFrom s.pc 3).take i.size = encode s.cfg.opcodeMap i := by
    refine List.ext_getElem? fun k => ?_
    by_cases hk : k < i.size
    · have := i.size_le
      rw [List.getElem?_take_of_lt hk, getElem?_wordsFrom s 3 s.pc k (by omega) (by omega), hwords k hk]
    · have hk' := Nat.le_of_not_lt hk
      rw [List.getElem?_take_eq_none hk', List.getElem?_eq_none (by rwa [length_encode])]
  refine fetch_of_wordsFrom (rest := (s.wordsFrom s.pc 3).drop i.size) hm ?_
  rw [← htake, List.take_append_drop]

theorem fetch_of_unknown_opcode {s : State} (hpc : s.pc ≠ haltWord)
    (h : ∀ o : Opcode, o.number s.cfg.opcodeMap ≠ s.memRead s.pc) : s.fetch = .error .unknownOpcode := by
  rw [State.fetch, wordsFrom_succ s hpc, decode, Opcode.ofNumber?_eq_none.2 h]

theorem fetch_of_missing_operand {s : State} {o : Opcode} (hpc : s.pc ≠ haltWord) (hm : s.cfg.opcodeMap.valid)
    (hword : s.memRead s.pc = o.number s.cfg.opcodeMap) (h : 0xFFFF ≤ s.pc.toNat + o.count) :
    s.fetch = .error .operandAtHaltAddress := by
  have hshort : (s.wordsFrom (s.pc + 1) 2).length < o.count := by
    have := toNat_add_one hpc
    rw [length_wordsFrom]
    bv_omega
  rw [State.fetch, wordsFrom_succ s hpc, hword, decode, Opcode.ofNumber?_number hm]
  simp only [if_pos hshort]

/-! ### What a step can do -/

theorem step_of_not_running {s : State} (h : s.status ≠ .running) : step s = .next s := by
  unfold step
  cases hs : s.status with
  | running => exact absurd hs h
  | halted | faulted => rfl

theorem status_faulted_of_fault {s : State} (h : s.fault ≠ none) : s.status = .faulted := by
  rw [State.status, if_pos (Option.isSome_iff_ne_none.2 h)]

/-- Where a step goes: it stays on an engine that does not run, or the fetch faults, or an instruction executes. -/
theorem step_cases {s t : State} (h : step s = .next t) :
    (s.status ≠ .running ∧ t = s)
    ∨ (∃ kind, s.status = .running ∧ t = s.raise kind s.pc)
    ∨ (∃ i, s.status = .running ∧ s.fetch = .ok i ∧ exec i (s.advance i.size) = .next t) := by
  by_cases hrun : s.status = .running
  · cases hfetch : s.fetch with
    | error kind =>
      exact .inr (.inl ⟨kind, hrun, Host.Outcome.next.inj (h.symm.trans (step_of_fetch_error hrun hfetch))⟩)
    | ok i => exact .inr (.inr ⟨i, hrun, rfl, (step_of_fetch hrun hfetch).symm.trans h⟩)
  · exact .inl ⟨hrun, Host.Outcome.next.inj (h.symm.trans (step_of_not_running hrun))⟩

/-- The advance touches neither memory nor the trace. -/
theorem Plain.of_advance {s t : State} {n : Nat} (h : Plain (s.advance n) t) : Plain s t := by
  refine ⟨?_, h.heapOffset_kept, h.cfg_kept⟩
  cases h.effect with
  | kept hmem htrace => exact .kept hmem htrace
  | wrote a v hmem htrace => exact .wrote a v hmem htrace
  | drew hmem htrace => exact .drew hmem htrace

/-- The effects of a step are those of an execute phase. -/
theorem plain_of_step {s t : State} (h : step s = .next t) : Plain s t := by
  obtain ⟨-, rfl⟩ | ⟨kind, -, rfl⟩ | ⟨i, -, -, hexec⟩ := step_cases h
  · exact plain_refl _
  · exact ⟨.kept rfl rfl, rfl, rfl⟩
  · obtain ⟨t', ht', hplain⟩ := exec_answers i (s.advance i.size)
    obtain rfl := Host.Outcome.next.inj (hexec.symm.trans ht')
    exact hplain.of_advance

theorem State.Inv.of_plain {s t : State} (hs : s.Inv) (h : Plain s t) : t.Inv := by
  obtain ⟨hwf, hsizes⟩ := hs
  constructor
  · rw [h.cfg_kept]
    cases h.effect with
    | kept hmem _ | drew hmem _ => exact hmem ▸ hwf
    | wrote a v hmem _ => exact hmem ▸ State.memWrite_wf hwf a v
  · rw [h.cfg_kept]
    cases h.effect with
    | kept _ htrace | wrote _ _ _ htrace => exact htrace ▸ hsizes
    | drew _ htrace =>
      rw [htrace]
      intro e he
      obtain he | he := List.mem_append.1 he
      · exact hsizes e he
      · obtain rfl := List.mem_singleton.1 he
        exact State.length_textRegion s

/-! ### The obligations -/

/-- Settles O43: each of the three effects a step can have keeps memory canonical and the events as long as the text
region. -/
theorem stepKeepsInvariant : Obligations.StepKeepsInvariant := fun _ _ hs h => hs.of_plain (plain_of_step h)

/-- Settles O30: the fetch answers what the words at `pc` decode to, whatever they leave. -/
theorem stepRunsDecodedInstruction : Obligations.StepRunsDecodedInstruction := by
  intro s i rest hfault hpc hdecode
  obtain ⟨hlc, hpc', -⟩ := advance_spec s i.size
  exact ⟨step_of_fetch (status_running_iff.2 ⟨hfault, hpc⟩) (fetch_of_decode hdecode), hlc, hpc', frame_advance s _⟩

/-- Settles O31: the fetch reads up to three words, and the decoder leaves those past the instruction. -/
theorem stepRunsInstructionInMemory : Obligations.StepRunsInstructionInMemory := by
  intro s i hfault hm hsize hwords
  have hpc : s.pc ≠ haltWord := ne_haltWord_of_lt (by have := i.size_pos; omega)
  exact step_of_fetch (status_running_iff.2 ⟨hfault, hpc⟩) (fetch_of_words_in_memory hm hsize hwords)

/-- Settles O32: a fault record is looked at before `pc`. -/
theorem stoppedEngineChangesNothing : Obligations.StoppedEngineChangesNothing := by
  refine ⟨fun s hfault => ?_, fun s hfault hpc => ?_⟩
  · have hstatus := status_faulted_of_fault hfault
    exact ⟨step_of_not_running (by rw [hstatus]; decide), hstatus⟩
  · have hstatus := status_halted_of_pc hfault hpc
    exact ⟨step_of_not_running (by rw [hstatus]; decide), hstatus⟩

/-- Settles O33: the spec's map numbers its rows below 0x0020. -/
theorem unknownOpcodeFaults : Obligations.UnknownOpcodeFaults := by
  have hgeneral (s : State) (hfault : s.fault = none) (hpc : s.pc ≠ haltWord)
      (h : ∀ o : Opcode, o.number s.cfg.opcodeMap ≠ s.memRead s.pc) :
      ∃ t, step s = .next t ∧ FaultedAt .unknownOpcode s.pc s t :=
    ⟨_, step_of_fetch_error (status_running_iff.2 ⟨hfault, hpc⟩) (fetch_of_unknown_opcode hpc h),
      faultedAt_raise s _ _⟩
  refine ⟨hgeneral, fun s hfault hpc hmap hword => hgeneral s hfault hpc fun o ho => ?_⟩
  rw [hmap, OpcodeMap.number_standard] at ho
  rw [← ho, BitVec.toNat_ofNat] at hword
  have := o.index.isLt
  omega

/-- Settles O34: the fetch stops before 0xFFFF, so the decoder misses the operand. -/
theorem operandAtHaltAddressFaults : Obligations.OperandAtHaltAddressFaults := by
  intro s o hfault hpc hm hword h
  exact ⟨_, step_of_fetch_error (status_running_iff.2 ⟨hfault, hpc⟩) (fetch_of_missing_operand hpc hm hword h),
    faultedAt_raise s _ _⟩

/-- Settles O35: a fault's record takes the address from `lc`, which the advance has just set to `pc`. -/
theorem executeFaultsArePrecise : Obligations.ExecuteFaultsArePrecise := by
  intro s t i kind p hfault hpc hfetch hstep ht
  rw [step_of_fetch (status_running_iff.2 ⟨hfault, hpc⟩) hfetch] at hstep
  obtain ⟨hlc, -⟩ := advance_spec s i.size
  obtain ⟨kind', -, rfl⟩ | ⟨-, hdone⟩ := exec_cases hstep
  · obtain ⟨rfl, rfl⟩ := Prod.mk.inj (Option.some.inj ht)
    exact ⟨hlc, hlc ▸ faultedAt_raiseHere _ _⟩
  · have hnone : t.fault = none := hdone.fault_kept.trans hfault
    rw [hnone] at ht
    cases ht

/-- Settles O39: no effect of a step reaches the heap base or the configuration. -/
theorem heapBaseAndRecordStay : Obligations.HeapBaseAndRecordStay := by
  intro s t h
  have hplain := plain_of_step h
  refine ⟨hplain.heapOffset_kept, hplain.cfg_kept, fun hfault => ?_⟩
  obtain rfl := Host.Outcome.next.inj (h.symm.trans (stoppedEngineChangesNothing.1 s hfault).1)
  rfl

/-- Settles O40: the text region the event copies is that before the advance, which writes no memory. -/
theorem onlyVgaExtendsTrace : Obligations.OnlyVgaExtendsTrace := by
  intro s t h
  obtain ⟨-, rfl⟩ | ⟨kind, -, rfl⟩ | ⟨i, hrun, hfetch, hexec⟩ := step_cases h
  · exact .inl rfl
  · exact .inl rfl
  · obtain ⟨kind, -, rfl⟩ | ⟨-, hdone⟩ := exec_cases hexec
    · exact .inl rfl
    · by_cases hvga : i = .vga
      · subst hvga
        obtain rfl := Host.Outcome.next.inj ((exec_vga _).symm.trans hexec)
        exact .inr ⟨hrun, hfetch, rfl⟩
      · exact .inl (hdone.trace_kept hvga)

/-- Settles O41: the advance sets `lc`, and the execute phase leaves it. -/
theorem lcHoldsLastInstructionAddress : Obligations.LcHoldsLastInstructionAddress := by
  intro s t i hrun hfetch hlc h
  rw [step_of_fetch hrun hfetch] at h
  exact (execWritesOnlyNamedRegisters i _ t .lc h hlc).trans (advance_spec s i.size).1

/-- Settles O42: the advance sets `pc`, and no word of the instruction lies at 0xFFFF. -/
theorem pcAdvancesPastInstruction : Obligations.PcAdvancesPastInstruction := by
  intro s t i hrun hfetch hpc h
  rw [step_of_fetch hrun hfetch] at h
  obtain ⟨-, hadvance, -⟩ := advance_spec s i.size
  have hsize := pc_add_size_le_of_fetch hfetch
  have hpc' : t.pc = s.pc + BitVec.ofNat 16 i.size := (execWritesOnlyNamedRegisters i _ t .pc h hpc).trans hadvance
  rw [hpc']
  bv_omega

end Sys2Proof.Machine
end

section
/-! PROOFS. Reset and the loader (10_state.md R37; 70_reset_and_hazards.md R260 to R266): what each step of the loader
leaves, then the obligations. -/

namespace Sys2Proof.Machine

/-! ### The loader's steps -/

@[simp] theorem State.reg_cleared (c : Config) (r : RegId) : (State.cleared c).reg r = c.regReset := by
  simp [State.cleared, State.reg]

@[simp] theorem State.cfg_cleared (c : Config) : (State.cleared c).cfg = c := rfl

@[simp] theorem State.memRead_cleared (c : Config) (a : Word) : (State.cleared c).memRead a = c.memDefault := rfl

theorem State.inv_cleared (c : Config) : (State.cleared c).Inv := ⟨Memory.wf_nil _, by simp [State.cleared]⟩

/-- Placing a program writes its words and the heap base, and keeps the invariant (R263). -/
theorem placeProgram_spec {s : State} {p : Program} (h : s.cfg.programOffset.toNat + p.size ≤ 0xFFFF) :
    (∀ r, (s.placeProgram p).reg r = s.reg r)
    ∧ (∀ a, (s.placeProgram p).memRead a =
        if s.cfg.programOffset.toNat ≤ a.toNat ∧ a.toNat < s.cfg.programOffset.toNat + p.size
        then (p.words s.cfg.opcodeMap).getD (a.toNat - s.cfg.programOffset.toNat) 0 else s.memRead a)
    ∧ (s.placeProgram p).heapOffset.toNat = s.cfg.programOffset.toNat + p.size
    ∧ (s.placeProgram p).fault = s.fault ∧ (s.placeProgram p).trace = s.trace ∧ (s.placeProgram p).cfg = s.cfg
    ∧ (s.Inv → (s.placeProgram p).Inv) := by
  obtain ⟨hregs, -, hfault, htrace, hcfg, hwf⟩ :=
    memWriteAll_keeps (p.words s.cfg.opcodeMap) s s.cfg.programOffset
  refine ⟨fun r => ?_, fun a => ?_, ?_, hfault, htrace, hcfg, fun hs => ⟨?_, ?_⟩⟩
  · exact congrArg (fun regs : Vector Word 16 => regs[r]) hregs
  · have hread := memRead_memWriteAll (p.words s.cfg.opcodeMap) s s.cfg.programOffset a (by rw [length_words]; omega)
    rwa [length_words] at hread
  · simp only [State.placeProgram]
    bv_omega
  · exact (congrArg (Memory.wf ·.memDefault _) hcfg).mpr (hwf hs.mem_wf)
  · exact fun e he => (hs.trace_sizes e (htrace ▸ he)).trans (congrArg (·.stackMin.toNat) hcfg.symm)

/-- Setting up the stack writes the halt sentinel at `STACK_MAX`, `sp` and `pc` (R264). -/
theorem setupStack_spec (s : State) (entry : Word) :
    (s.setupStack entry).sp = s.cfg.stackMax ∧ (s.setupStack entry).pc = entry
    ∧ (∀ r, r ≠ .sp → r ≠ .pc → (s.setupStack entry).reg r = s.reg r)
    ∧ (∀ a, (s.setupStack entry).memRead a = if a = s.cfg.stackMax then haltWord else s.memRead a)
    ∧ (s.setupStack entry).heapOffset = s.heapOffset ∧ (s.setupStack entry).fault = s.fault
    ∧ (s.setupStack entry).trace = s.trace ∧ (s.setupStack entry).cfg = s.cfg
    ∧ (s.Inv → (s.setupStack entry).Inv) := by
  obtain ⟨hsp, hregs, hmem, hheap, hfault, htrace, hcfg⟩ := push_spec (s.setReg .sp (s.cfg.stackMax + 1)) haltWord
  have haddr : (s.setReg .sp (s.cfg.stackMax + 1)).sp - 1 = s.cfg.stackMax := by
    rw [State.sp, State.reg_setReg_self, BitVec.add_sub_cancel]
  rw [haddr] at hsp hmem
  refine ⟨?_, State.reg_setReg_self .., fun r hr hr' => ?_, hmem, hheap, hfault, htrace, hcfg, fun hs => ?_⟩
  · exact (State.reg_setReg_of_ne _ RegId.sp_ne_pc _).trans hsp
  · exact (State.reg_setReg_of_ne _ hr' _).trans ((hregs r hr).trans (State.reg_setReg_of_ne _ hr _))
  · exact ((hs.of_plain (plain_setReg ..)).of_plain (plain_push ..)).of_plain (plain_setReg ..)

/-- The loader answers a state exactly for valid parameters and a valid program, and which one. -/
theorem load_eq_ok_iff {c : Config} {p : Program} {s : State} : load c p = .ok s ↔
    c.valid ∧ p.valid c ∧ s = ((State.cleared c).placeProgram p).setupStack (BitVec.ofNat 16 (p.entry c)) := by
  unfold load
  split
  next hc => exact ⟨nofun, fun h => absurd h.1 hc⟩
  next hc =>
    split
    next hsubs => exact ⟨nofun, fun h => absurd hsubs h.2.1.1⟩
    next hsubs =>
      split
      next hsize => exact ⟨nofun, fun h => absurd h.2.1.2 (Nat.not_le.2 hsize)⟩
      next hsize =>
        exact ⟨fun h => ⟨not_not.1 hc, ⟨hsubs, Nat.le_of_not_lt hsize⟩, (Except.ok.inj h).symm⟩,
          fun h => congrArg _ h.2.2.symm⟩

/-! ### The entry (46_codec.md R180) -/

/-- The words before the entry are the constants and all subroutines but the last. -/
theorem words_concat (m : OpcodeMap) (consts : List Word) (subs : List (List Instr)) (is : List Instr) :
    Program.words m ⟨consts, subs ++ [is]⟩ = consts ++ subs.flatMap (subWords m) ++ subWords m is := by
  simp [Program.words]

theorem entry_concat (c : Config) (m : OpcodeMap) (consts : List Word) (subs : List (List Instr)) (is : List Instr) :
    Program.entry c ⟨consts, subs ++ [is]⟩
      = c.programOffset.toNat + (consts ++ subs.flatMap (subWords m)).length := by
  simp only [Program.entry, List.dropLast_concat, List.length_append, List.length_flatMap, length_subWords, Nat.add_assoc]

theorem size_concat (m : OpcodeMap) (consts : List Word) (subs : List (List Instr)) (is : List Instr) :
    Program.size ⟨consts, subs ++ [is]⟩ = (consts ++ subs.flatMap (subWords m)).length + subSize is := by
  rw [← length_words m, words_concat, List.length_append, length_subWords]

/-! ### Arguments (R266) -/

theorem frame_foldl_memWrite (writes : List (Word × Word)) : ∀ s : State,
    Frame [] (writes.map Prod.fst) s (writes.foldl (fun s w => s.memWrite w.1 w.2) s) := by
  induction writes with
  | nil => exact Frame.refl
  | cons w writes ih => exact fun s => (frame_memWrite s w.1 w.2).trans (ih _)

/-! ### The obligations -/

/-- Settles O44: memory lists the halt sentinel alone, which is not what an unlisted address reads as. -/
theorem resetMeetsInvariant : Obligations.ResetMeetsInvariant := ⟨by decide, by simp [State.reset]⟩

/-- Settles O45: an address other than `STACK_MAX` has no cell, so it reads as `MEM_DEFAULT`. -/
theorem resetHoldsLoadValues : Obligations.ResetHoldsLoadValues := by
  refine ⟨by decide, by decide, by decide, fun a ha => ?_, rfl, rfl, by decide, rfl⟩
  refine Memory.read_of_forall_ne (List.forall_mem_singleton.2 fun h => ha ?_)
  exact BitVec.eq_of_toNat_eq h.symm

/-- Settles O46: the program stands from `STACK_MAX + 1` on, so the halt sentinel at `STACK_MAX` overwrites none of its
words. -/
theorem loadPlacesProgram : Obligations.LoadPlacesProgram := by
  intro c p hc hp
  obtain ⟨-, hmax, hoffset, -⟩ := id hc
  have hoffset' : c.programOffset.toNat = c.stackMax.toNat + 1 := by rw [hoffset]; bv_omega
  have hsize : c.programOffset.toNat + p.size ≤ 0xFFFF := hp.2
  obtain ⟨hregs, hmem, hheap, hfault, htrace, hcfg, hinv⟩ := placeProgram_spec (s := State.cleared c) hsize
  obtain ⟨hsp, hpc, hregs', hmem', hheap', hfault', htrace', hcfg', hinv'⟩ :=
    setupStack_spec ((State.cleared c).placeProgram p) (BitVec.ofNat 16 (p.entry c))
  rw [State.cfg_cleared] at hcfg hmem
  rw [hcfg] at hsp hmem' hcfg'
  refine ⟨_, load_eq_ok_iff.2 ⟨hc, hp, rfl⟩, hsp, hpc, fun r hr hr' => ?_, ?_, fun k hk => ?_, fun a ha hout => ?_,
    (congrArg BitVec.toNat hheap').trans hheap, hfault'.trans hfault, htrace'.trans htrace, hcfg',
    hinv' (hinv (State.inv_cleared c))⟩
  · rw [hregs' r hr hr', hregs, State.reg_cleared]
  · exact (hmem' _).trans (if_pos rfl)
  · have hk' : (c.programOffset + BitVec.ofNat 16 k).toNat = c.programOffset.toNat + k := by bv_omega
    have hne : c.programOffset + BitVec.ofNat 16 k ≠ c.stackMax := fun h => by rw [h] at hk'; omega
    have hlen : k < (p.words c.opcodeMap).length := by rwa [length_words]
    rw [hmem', if_neg hne, hmem, hk', if_pos ⟨Nat.le_add_right .., Nat.add_lt_add_left hk _⟩, Nat.add_sub_cancel_left,
      List.getD_eq_getElem _ _ hlen, List.getElem?_eq_getElem hlen]
  · rw [hmem', if_neg ha, hmem, if_neg, State.memRead_cleared]
    rintro ⟨hlow, hhigh⟩
    exact hout.elim (Nat.not_lt.2 hlow) (Nat.not_le.2 hhigh)

/-- Settles O47: the parameters are checked before the program (R262). -/
theorem loadRefusesBadPrograms : Obligations.LoadRefusesBadPrograms := by
  refine ⟨fun c p hc => ?_, fun c p hc hsubs hsize => ?_⟩
  · rw [load, if_pos hc]
  · rw [load, if_neg (not_not.2 hc), if_neg hsubs, if_pos hsize]

/-- Settles O58: the entry is checked before the size. -/
theorem loadRefusesProgramWithoutEntry : Obligations.LoadRefusesProgramWithoutEntry := by
  intro c consts hc
  rw [load, if_neg (not_not.2 hc), if_pos rfl]

/-- Settles O48: the entry holds the word of `ret`, which pops the halt sentinel the loader pushed. -/
theorem returnFromMainHalts : Obligations.ReturnFromMainHalts := by
  intro c consts subs is s hload
  obtain ⟨hc, hp, -⟩ := load_eq_ok_iff.1 hload
  obtain ⟨-, -, -, -, hm⟩ := id hc
  obtain ⟨s', hload', hsp, hpc, -, hsentinel, hwords, -, -, hfault, -, hcfg, -⟩ := loadPlacesProgram c _ hc hp
  obtain rfl := Except.ok.inj (hload'.symm.trans hload)
  have hsize := hp.2
  rw [size_concat c.opcodeMap] at hsize hwords
  rw [entry_concat c c.opcodeMap, BitVec.ofNat_add, BitVec.ofNat_toNat, BitVec.setWidth_eq] at hpc
  rw [words_concat] at hwords
  have hpos : 0 < subSize (.ret :: is) := (Nat.succ_pos _).trans_le (length_le_subSize (.ret :: is))
  have hword := hwords _ (Nat.lt_add_of_pos_right hpos)
  rw [← hpc, List.getElem?_append_right (Nat.le_refl _), Nat.sub_self, subWords_cons] at hword
  have hfits : s'.pc.toNat + Instr.ret.size ≤ 0xFFFF := by
    have hone : Instr.ret.size = 1 := rfl
    rw [hpc, hone]
    bv_omega
  have hstep : step s' = exec .ret (s'.advance 1) := by
    refine stepRunsInstructionInMemory s' .ret hfault (hcfg ▸ hm) hfits fun k hk => ?_
    obtain rfl : k = 0 := Nat.lt_one_iff.1 hk
    rw [hcfg, BitVec.add_zero, ← hword]
    rfl
  obtain ⟨t, ht, htpc, htsp, hframe⟩ := retPopsProgramCounter.2.1 (s'.advance 1)
  have hadvance : (s'.advance 1).sp = c.stackMax := ((frame_advance s' 1).regs_kept .sp (by decide)).trans hsp
  rw [hadvance] at htpc htsp
  exact ⟨t, hstep.trans ht, status_halted_of_pc (hframe.fault_kept.trans hfault) (htpc.trans hsentinel), htsp⟩

/-- Settles O49: every write is to an address at or above the heap base. -/
theorem argumentsStayInHeap : Obligations.ArgumentsStayInHeap := by
  intro s t writes h
  rw [State.loadArguments] at h
  split at h
  next hall =>
    cases h
    have hframe := frame_foldl_memWrite writes s
    refine ⟨fun r => hframe.regs_kept r (by simp), fun a ha => hframe.cells_kept a fun hmem => ?_, hframe.heapOffset_kept,
      hframe.fault_kept, hframe.trace_kept, hframe.cfg_kept⟩
    obtain ⟨w, hw, rfl⟩ := List.mem_map.1 hmem
    have hle : s.heapOffset ≤ w.1 := by simpa using List.all_eq_true.1 hall w hw
    exact absurd ha (BitVec.not_lt.2 hle)
  · cases h

end Sys2Proof.Machine
end

section
/-! PROOFS. The assembler (47_assembler.md): what one line of the forward pass does, what the pass keeps about sizes and
names, what the patch pass keeps, then the obligations. -/

namespace Sys2Proof.Machine

/-! ### One line of the forward pass (R201, R205 to R210) -/

/-- What a line of a given form makes of the pass state, when it is no error. -/
inductive AsmState.Grows (st : AsmState) : Option LineForm → AsmState → Prop
  | empty : st.Grows none st
  | constant (name : Token) (value : List Token) (ws : List Word) (table : List (Token × Nat))
      (outside : st.current = none) (fits : st.cursor + ws.length ≤ 0xFFFF) :
      st.Grows (some (.constant name value)) { st with
        cursor := st.cursor + ws.length
        consts := st.consts ++ ws.mapIdx fun k w => (st.cursor + k, w)
        constTable := table }
  | subroutine (name : Token) :
      st.Grows (some (.subroutine name)) { st with
        committed := st.subs
        current := some ⟨name, st.cursor, [], []⟩ }
  | label (name : Token) (s : AsmSub) (labels : List (Token × Nat)) (inside : st.current = some s) :
      st.Grows (some (.label name)) { st with current := some { s with labels := labels } }
  | instruction (mnemonic : Token) (ts : List Token) (s : AsmSub) (op : Opcode) (ws : List Word) (refs : List LabelRef)
      (inside : st.current = some s) (fits : st.cursor + op.size ≤ 0xFFFF) :
      st.Grows (some (.instruction mnemonic ts)) { st with
        cursor := st.cursor + op.size
        current := some { s with code := s.code ++ [(op, ws)] }
        refs := refs }

theorem grows_of_declareConstant {st st' : AsmState} {line : Nat} {name : Token} {value : List Token}
    (h : st.declareConstant line name value = .ok st') : st.Grows (some (.constant name value)) st' := by
  unfold AsmState.declareConstant at h
  split at h
  · cases h
  split at h
  · cases h
  next hcurrent =>
  split at h
  · cases h
  split at h
  · cases h
  split at h
  · cases h
  next hfits =>
  cases h
  exact .constant _ _ _ _ (by simpa using hcurrent) (Nat.le_of_not_lt hfits)

theorem grows_of_declareSubroutine {st st' : AsmState} {line : Nat} {name : Token}
    (h : st.declareSubroutine line name = .ok st') : st.Grows (some (.subroutine name)) st' := by
  unfold AsmState.declareSubroutine at h
  split at h
  · cases h
  split at h
  · cases h
  cases h
  exact .subroutine _

theorem grows_of_declareLabel {st st' : AsmState} {line : Nat} {name : Token}
    (h : st.declareLabel line name = .ok st') : st.Grows (some (.label name)) st' := by
  unfold AsmState.declareLabel at h
  split at h
  · cases h
  split at h
  · cases h
  next s hcurrent =>
  split at h
  · cases h
  cases h
  exact .label _ s _ hcurrent

theorem grows_of_instruction {st st' : AsmState} {line : Nat} {mnemonic : Token} {ts : List Token}
    (h : st.instruction line mnemonic ts = .ok st') : st.Grows (some (.instruction mnemonic ts)) st' := by
  unfold AsmState.instruction at h
  split at h
  · cases h
  next s hcurrent =>
  split at h
  · cases h
  split at h
  · cases h
  split at h
  · cases h
  split at h
  · cases h
  next hfits =>
  cases h
  exact .instruction _ _ s _ _ _ hcurrent (Nat.le_of_not_lt hfits)

theorem grows_of_line {st st' : AsmState} {l : Line} (h : st.line l = .ok st') :
    st.Grows (classify l.tokens) st' := by
  unfold AsmState.line at h
  split at h
  next hform => cases h; rw [hform]; exact .empty
  next hform => rw [hform]; exact grows_of_declareConstant h
  next hform => rw [hform]; exact grows_of_declareSubroutine h
  next hform => rw [hform]; exact grows_of_declareLabel h
  next hform => rw [hform]; exact grows_of_instruction h

/-- An induction over the forward pass: what every line keeps, the pass keeps. -/
theorem lines_induction {P : AsmState → List Line → AsmState → Prop} (nil : ∀ st, P st [] st)
    (cons : ∀ st l st₁ ls st₂, st.Grows (classify l.tokens) st₁ → P st₁ ls st₂ → P st (l :: ls) st₂)
    (ls : List Line) : ∀ st st', st.lines ls = .ok st' → P st ls st' := by
  induction ls with
  | nil => intro st st' h; cases h; exact nil st
  | cons l ls ih =>
    intro st st' h
    rw [AsmState.lines] at h
    split at h
    · cases h
    next st₁ hline => exact cons st l st₁ ls st' (grows_of_line hline) (ih st₁ st' h)

/-! ### Sizes (R203, R222) -/

/-- The opcodes of a subroutine under assembly; the patch pass changes operand words alone. -/
def AsmSub.opcodes (s : AsmSub) : List Opcode := s.code.map Prod.fst

/-- The length in words of instructions with these opcodes. -/
def opcodesSize (os : List Opcode) : Nat := (os.map Opcode.size).sum

/-- The cursor stands just past all words assembled so far, and no word lies at 0xFFFF. -/
structure AsmState.Sized (c : Config) (st : AsmState) : Prop where
  cursor_eq : st.cursor = c.programOffset.toNat + st.consts.length + (st.subs.map fun s => opcodesSize s.opcodes).sum
  cursor_le : st.cursor ≤ 0xFFFF

theorem sized_init (c : Config) : (AsmState.init c).Sized c :=
  ⟨by simp [AsmState.init, AsmState.subs], Nat.le_of_lt_succ c.programOffset.isLt⟩

theorem AsmState.Sized.of_grows {c : Config} {st st' : AsmState} {f : Option LineForm} (hs : st.Sized c)
    (h : st.Grows f st') : st'.Sized c := by
  obtain ⟨heq, hle⟩ := hs
  cases h with
  | empty => exact ⟨heq, hle⟩
  | constant name value ws table outside fits =>
    refine ⟨?_, fits⟩
    simp only [AsmState.subs, List.length_append, List.length_mapIdx] at heq ⊢
    omega
  | subroutine name =>
    refine ⟨?_, hle⟩
    simpa [AsmState.subs, AsmSub.opcodes, opcodesSize] using heq
  | label name s labels inside =>
    refine ⟨?_, hle⟩
    simpa [AsmState.subs, AsmSub.opcodes, inside] using heq
  | instruction mnemonic ts s op ws refs inside fits =>
    refine ⟨?_, fits⟩
    simp only [AsmState.subs, AsmSub.opcodes, opcodesSize, inside, Option.toList_some, List.map_append, List.map_cons,
      List.map_nil, List.sum_append, List.sum_cons, List.sum_nil] at heq ⊢
    omega

theorem sized_of_lines {c : Config} {ls : List Line} {st st' : AsmState} (h : st.lines ls = .ok st')
    (hs : st.Sized c) : st'.Sized c :=
  lines_induction (P := fun st _ st' => st.Sized c → st'.Sized c) (fun _ hs => hs)
    (fun _ _ _ _ _ hgrows ih hs => ih (hs.of_grows hgrows)) ls st st' h hs

/-! ### Names (R208) -/

/-- The name a line form declares a subroutine under, if it declares one. -/
def LineForm.subroutineName? : LineForm → Option Token
  | .subroutine name => some name
  | .constant _ _ | .label _ | .instruction _ _ => none

/-- The names of the subroutines that lines declare, in order. -/
def declaredNames (ls : List Line) : List Token :=
  (ls.filterMap fun l => classify l.tokens).filterMap LineForm.subroutineName?

theorem declaredNames_cons (l : Line) (ls : List Line) :
    declaredNames (l :: ls) = ((classify l.tokens).bind LineForm.subroutineName?).toList ++ declaredNames ls := by
  rw [declaredNames, declaredNames, List.filterMap_filterMap, List.filterMap_filterMap, List.filterMap_cons]
  cases (classify l.tokens).bind LineForm.subroutineName? <;> rfl

theorem map_name_of_grows {st st' : AsmState} {f : Option LineForm} (h : st.Grows f st') :
    st'.subs.map AsmSub.name = st.subs.map AsmSub.name ++ (f.bind LineForm.subroutineName?).toList := by
  cases h with
  | empty => simp
  | constant name value ws table outside fits => simp [AsmState.subs, LineForm.subroutineName?]
  | subroutine name => simp [AsmState.subs, LineForm.subroutineName?]
  | label name s labels inside => simp [AsmState.subs, LineForm.subroutineName?, inside]
  | instruction mnemonic ts s op ws refs inside fits => simp [AsmState.subs, LineForm.subroutineName?, inside]

/-- The pass holds the subroutines under the names declared, in order. -/
theorem map_name_of_lines {ls : List Line} {st st' : AsmState} (h : st.lines ls = .ok st') :
    st'.subs.map AsmSub.name = st.subs.map AsmSub.name ++ declaredNames ls := by
  refine lines_induction (P := fun st ls st' => st'.subs.map AsmSub.name = st.subs.map AsmSub.name ++ declaredNames ls)
    (fun st => (List.append_nil _).symm) (fun st l st₁ ls st₂ hgrows ih => ?_) ls st st' h
  rw [ih, map_name_of_grows hgrows, declaredNames_cons, List.append_assoc]

/-! ### The patch pass (R221) -/

theorem map_fst_patchCode (slot : Nat) (w : Word) (code : List (Opcode × List Word)) : ∀ a : Nat,
    (patchCode slot w a code).map Prod.fst = code.map Prod.fst := by
  induction code with
  | nil => exact fun _ => rfl
  | cons row code ih => exact fun a => congrArg (row.1 :: ·) (ih _)

theorem map_opcodes_of_patchRef {r : LabelRef} (subs : List AsmSub) : ∀ subs' : List AsmSub,
    patchRef r subs = .ok subs' → subs'.map AsmSub.opcodes = subs.map AsmSub.opcodes := by
  induction subs with
  | nil => intro subs' h; cases h
  | cons s subs ih =>
    intro subs' h
    rw [patchRef] at h
    split at h
    · split at h
      · cases h
      · cases h
        exact congrArg (· :: _) (map_fst_patchCode ..)
    · cases hrest : patchRef r subs with
      | error e => rw [hrest] at h; cases h
      | ok subs₁ =>
        rw [hrest] at h
        cases h
        exact congrArg (s.opcodes :: ·) (ih subs₁ hrest)

theorem map_opcodes_of_patchRefs (refs : List LabelRef) : ∀ subs subs' : List AsmSub,
    patchRefs refs subs = .ok subs' → subs'.map AsmSub.opcodes = subs.map AsmSub.opcodes := by
  induction refs with
  | nil => intro subs subs' h; cases h; rfl
  | cons r refs ih =>
    intro subs subs' h
    rw [patchRefs] at h
    split at h
    · cases h
    next subs₁ href => rw [ih subs₁ subs' h, map_opcodes_of_patchRef subs subs₁ href]

/-! ### The end of the pass (R220, R221, R225) -/

theorem subSize_map_instrOf (s : AsmSub) : subSize (s.code.map instrOf) = opcodesSize s.opcodes := by
  simp only [subSize, opcodesSize, AsmSub.opcodes, List.map_map]
  refine congrArg List.sum (List.map_congr_left fun row _ => ?_)
  exact congrArg Opcode.size (Opcode.opcode_instr ..)

theorem getLast?_of_mainLast {subs : List AsmSub} (h : mainLast subs = true) :
    (subs.map AsmSub.name).getLast? = some mainName := by
  rw [List.getLast?_map]
  exact beq_iff_eq.1 h

/-- The program the pass ends with: its constants, and subroutines of the opcodes assembled. -/
theorem finish_spec {st : AsmState} {n : Nat} {p : Program} (h : st.finish n = .ok p) :
    mainLast st.subs = true ∧ p.consts.length = st.consts.length
    ∧ p.subs.map subSize = st.subs.map fun s => opcodesSize s.opcodes := by
  rw [AsmState.finish] at h
  split at h
  next hmain =>
    split at h
    · cases h
    next subs hpatch =>
      cases h
      refine ⟨hmain, List.length_map .., ?_⟩
      have hopcodes := congrArg (List.map opcodesSize) (map_opcodes_of_patchRefs _ _ _ hpatch)
      simpa only [List.map_map, Function.comp_def, subSize_map_instrOf] using hopcodes
  · cases h

/-- What the assembler accepts, its forward pass accepts. -/
theorem lines_of_assemble {c : Config} {ls : List Line} {p : Program} (h : assemble c ls = .ok p) :
    ∃ st n, (AsmState.init c).lines ls = .ok st ∧ st.finish n = .ok p := by
  rw [assemble] at h
  split at h
  · cases h
  next st hst => exact ⟨st, _, hst, h⟩

/-! ### The text of one instruction (30_encoding.md R83) -/

theorem classify_mnemonic (o : Opcode) : classify [o.mnemonic] = some (.instruction o.mnemonic []) := by
  cases o <;> rfl

theorem classify_instrTokens (i : Instr) :
    classify (instrTokens i) = some (.instruction i.opcode.mnemonic (i.operands.map hexToken)) := by
  rw [instrTokens]
  cases i.operands with
  | nil => exact classify_mnemonic _
  | cons w ws => rw [List.map_cons, classify, if_neg (by simp [hexToken])]

theorem operands_map_hexToken (st : AsmState) (line : Nat) (ws : List Word) :
    st.operands line (ws.map hexToken) = .ok (ws.map .word) := by
  induction ws with
  | nil => rfl
  | cons w ws ih => simp only [List.map_cons, AsmState.operands, operand_hexToken, ih]

theorem labelRefs_map_word (sub : Token) (line : Nat) (ws : List Word) : ∀ a : Nat,
    labelRefs sub line a (ws.map .word) = [] := by
  induction ws with
  | nil => exact fun _ => rfl
  | cons w ws ih => exact fun a => ih (a + 1)

/-- A line with the text of an instruction appends that instruction to the open subroutine. -/
theorem line_instrTokens {st : AsmState} {s : AsmSub} (hs : st.current = some s) (n : Nat) (i : Instr)
    (hfits : st.cursor + i.size ≤ 0xFFFF) :
    st.line ⟨n, instrTokens i⟩ = .ok { st with
      cursor := st.cursor + i.size
      current := some { s with code := s.code ++ [(i.opcode, i.operands)] } } := by
  have hcount : ¬ (i.operands.map hexToken).length ≠ i.opcode.count := by simp [Instr.length_operands]
  have hwords : (i.operands.map Operand.word).map Operand.firstWord = i.operands := by
    simp [Function.comp_def, Operand.firstWord]
  rw [Instr.size] at hfits ⊢
  simp only [AsmState.line, classify_instrTokens, AsmState.instruction, hs, Opcode.ofMnemonic?_mnemonic, if_neg hcount,
    operands_map_hexToken, if_neg (Nat.not_lt.2 hfits), hwords, labelRefs_map_word, List.append_nil]

/-- The pass state after the declaration of `main` as the first line. -/
def AsmState.inMain (c : Config) : AsmState :=
  { AsmState.init c with current := some ⟨mainName, c.programOffset.toNat, [], []⟩ }

theorem line_main (c : Config) (n : Nat) :
    (AsmState.init c).line ⟨n, [['m', 'a', 'i', 'n', ':']]⟩ = .ok (AsmState.inMain c) := rfl

theorem instrOf_opcode_operands (i : Instr) : instrOf (i.opcode, i.operands) = i := by
  simpa [instrOf] using i.instr_operands []

/-! ### The obligations -/

/-- Settles O55: the cursor, which the pass never lets past 0xFFFF, ends just past the last word. -/
theorem assembledProgramIsValid : Obligations.AssembledProgramIsValid := by
  intro c ls p h
  obtain ⟨st, n, hlines, hfinish⟩ := lines_of_assemble h
  obtain ⟨heq, hle⟩ := sized_of_lines hlines (sized_init c)
  obtain ⟨hmain, hconsts, hsubs⟩ := finish_spec hfinish
  refine ⟨fun hnil => ?_, ?_⟩
  · have hnone : st.subs = [] := by simpa [hnil] using hsubs.symm
    rw [hnone] at hmain
    cases hmain
  · rw [Program.size, hconsts, hsubs]
    omega

/-- Settles O56: the pass holds the subroutines in the order of their declarations, and looks at the last. -/
theorem assemblerRequiresMainLast : Obligations.AssemblerRequiresMainLast := by
  intro c ls p h
  obtain ⟨st, n, hlines, hfinish⟩ := lines_of_assemble h
  have hnames : st.subs.map AsmSub.name = declaredNames ls := map_name_of_lines hlines
  have hlast := getLast?_of_mainLast (finish_spec hfinish).1
  rw [hnames] at hlast
  exact hlast

/-- Settles O57: a mnemonic finds its opcode, and a hex literal is its word, whatever the operand's kind. -/
theorem assembledTextIsTheInstruction : Obligations.AssembledTextIsTheInstruction := by
  intro c i hsize
  have hline := line_instrTokens (st := AsmState.inMain c) rfl 2 i hsize
  rw [assemble, AsmState.lines, line_main]
  simp only [AsmState.lines, hline]
  calc _ = Except.ok (Program.mk [] [[instrOf (i.opcode, i.operands)]]) := rfl
    _ = _ := by rw [instrOf_opcode_operands]

end Sys2Proof.Machine
end
